-- ==== Sys2Proof/Word.lean ====
section
/-! DEFINITION. The widths of the machine's values: 00_scope.md R7 and R8 (bit 0 is the least significant bit; every
value is unsigned). -/

namespace Sys2Proof

/-- A general register, a memory byte, an immediate NN (`V_WIDTH` = 8). -/
abbrev Byte := BitVec 8

/-- The index register, the program counter, a return address, an instruction word (16 bits). -/
abbrev Word := BitVec 16

/-- The 12-bit immediate NNN (30_encoding.md R81, R83). -/
abbrev Addr := BitVec 12

/-- A framebuffer row: one bit per column, column c is bit 63 - c (10_state.md R31). -/
abbrev Row := BitVec 64

/-- A general register's index, a 4-bit field, never out of range (10_state.md R20). -/
abbrev Reg := Fin 16

end Sys2Proof
end

