-- ==== Sys2Proof/Syntax.lean ====
section
/-! DEFINITION. The instruction set: one constructor per row of spec/opcode_table.json, in the table's order
(30_encoding.md R84). A word of no row is no instruction; the step executes it as the unknown instruction
(40_instruction_cycle.md R106). -/

namespace Sys2Proof

/-- The 24 instructions of R84 with their operands (R83): register indices `x`, `y`, the byte `nn`, the 12-bit address
`nnn`, and DXYN's row count `n`, a number whose range 0 to 15 WellFormed checks. -/
inductive Instr where
  /-- 00E0 (R190) -/
  | cls
  /-- 00EE (R120) -/
  | ret
  /-- 1NNN (R121) -/
  | jp (nnn : Addr)
  /-- 2NNN (R122) -/
  | call (nnn : Addr)
  /-- 3XNN (R123) -/
  | seImm (x : Reg) (nn : Byte)
  /-- 4XNN (R124) -/
  | sneImm (x : Reg) (nn : Byte)
  /-- 5XY0 (R125) -/
  | seReg (x y : Reg)
  /-- 9XY0 (R126) -/
  | sneReg (x y : Reg)
  /-- 6XNN (R140) -/
  | ldImm (x : Reg) (nn : Byte)
  /-- 7XNN (R141) -/
  | addImm (x : Reg) (nn : Byte)
  /-- 8XY0 (R142) -/
  | ldReg (x y : Reg)
  /-- 8XY1 (R143) -/
  | orReg (x y : Reg)
  /-- 8XY2 (R144) -/
  | andReg (x y : Reg)
  /-- 8XY3 (R145) -/
  | xorReg (x y : Reg)
  /-- 8XY4 (R146) -/
  | addReg (x y : Reg)
  /-- 8XY5 (R147) -/
  | sub (x y : Reg)
  /-- 8XY6 (R148) -/
  | shr (x y : Reg)
  /-- 8XY7 (R149) -/
  | subn (x y : Reg)
  /-- 8XYE (R150) -/
  | shl (x y : Reg)
  /-- ANNN (R170) -/
  | ldI (nnn : Addr)
  /-- DXYN (R195) -/
  | drw (x y : Reg) (n : Nat)
  /-- FX33 (R171) -/
  | bcd (x : Reg)
  /-- FX55 (R172) -/
  | stm (x : Reg)
  /-- FX65 (R173) -/
  | ldm (x : Reg)
  deriving DecidableEq, Repr

/-- The table's mnemonic of an instruction (30_encoding.md R84, R90; the spec's own naming, D9). -/
def Instr.mnemonic : Instr → String
  | .cls => "CLS"
  | .ret => "RET"
  | .jp _ => "JP"
  | .call _ => "CALL"
  | .seImm _ _ => "SE_IMM"
  | .sneImm _ _ => "SNE_IMM"
  | .seReg _ _ => "SE_REG"
  | .sneReg _ _ => "SNE_REG"
  | .ldImm _ _ => "LD_IMM"
  | .addImm _ _ => "ADD_IMM"
  | .ldReg _ _ => "LD_REG"
  | .orReg _ _ => "OR"
  | .andReg _ _ => "AND"
  | .xorReg _ _ => "XOR"
  | .addReg _ _ => "ADD_REG"
  | .sub _ _ => "SUB"
  | .shr _ _ => "SHR"
  | .subn _ _ => "SUBN"
  | .shl _ _ => "SHL"
  | .ldI _ => "LD_I"
  | .drw _ _ _ => "DRW"
  | .bcd _ => "BCD"
  | .stm _ => "STM"
  | .ldm _ => "LDM"

end Sys2Proof
end

