-- ==== Sys2Proof/WellFormed.lean ====
section
/-! DEFINITION. Which terms of Instr are instructions. The operand types carry every range of 30_encoding.md R83 but
one: DXYN's row count, a 4-bit field. -/

namespace Sys2Proof

/-- `N` in DXYN is the number of sprite rows, 0 to 15 (R83). Every other operand fits its field by its type. -/
def Instr.wellFormed : Instr → Bool
  | .drw _ _ n => decide (n < 16)
  | .cls | .ret | .jp _ | .call _ | .seImm _ _ | .sneImm _ _ | .seReg _ _ | .sneReg _ _ | .ldImm _ _ | .addImm _ _
  | .ldReg _ _ | .orReg _ _ | .andReg _ _ | .xorReg _ _ | .addReg _ _ | .sub _ _ | .shr _ _ | .subn _ _ | .shl _ _
  | .ldI _ | .bcd _ | .stm _ | .ldm _ => true

end Sys2Proof
end

