-- ==== Sys2Proof/Decode.lean ====
section
/-! DEFINITION. The decoder, the opcode table of 30_encoding.md R84 as data, and the encoder. -/

namespace Sys2Proof

/-- Why bytes are no instruction. `unknownInstruction`: a word of no row of R84 (R85 to R87); the step executes it
as R106 says. `tooShort`: fewer than two bytes were given (R80); the step never gives fewer. -/
inductive Reject where
  | tooShort
  | unknownInstruction (b0 b1 : Byte)
  deriving DecidableEq, Repr

/-- The six fields, "all extracted from every instruction word whether or not the instruction uses them" (R81). -/
structure Fields where
  opcat : BitVec 4
  x : BitVec 4
  y : BitVec 4
  n : BitVec 4
  nn : Byte
  nnn : Addr
  deriving DecidableEq, Repr

/-- R81, from the two bytes: `opcat = b0 >> 4`, `x = b0 & 0xF`, `y = b1 >> 4`, `n = b1 & 0xF`, `nn = b1`, `nnn = x : nn`. -/
def fieldsOf (b0 b1 : Byte) : Fields :=
  { opcat := b0.extractLsb' 4 4
    x := b0.extractLsb' 0 4
    y := b1.extractLsb' 4 4
    n := b1.extractLsb' 0 4
    nn := b1
    nnn := b0.extractLsb' 0 4 ++ b1 }

/-- A 4-bit field as a register index (R83: "every value is a valid index"). -/
def regOf (f : BitVec 4) : Reg := ⟨f.toNat, f.isLt⟩

/-- A register index as a 4-bit field. -/
def regField (x : Reg) : BitVec 4 := ⟨x⟩

/-- Dispatch "on `(opcat, n, nnn, nn)`" (R84): on opcat, then for family 0 on nnn, for families 5, 8 and 9 on n, for
family F on nn. -/
def dispatch (f : Fields) : Option Instr :=
  match f.opcat with
  | 0x0#4 =>
    match f.nnn with
    | 0x0E0#12 => some .cls
    | 0x0EE#12 => some .ret
    | _ => none
  | 0x1#4 => some (.jp f.nnn)
  | 0x2#4 => some (.call f.nnn)
  | 0x3#4 => some (.seImm (regOf f.x) f.nn)
  | 0x4#4 => some (.sneImm (regOf f.x) f.nn)
  | 0x5#4 =>
    match f.n with
    | 0x0#4 => some (.seReg (regOf f.x) (regOf f.y))
    | _ => none
  | 0x6#4 => some (.ldImm (regOf f.x) f.nn)
  | 0x7#4 => some (.addImm (regOf f.x) f.nn)
  | 0x8#4 =>
    match f.n with
    | 0x0#4 => some (.ldReg (regOf f.x) (regOf f.y))
    | 0x1#4 => some (.orReg (regOf f.x) (regOf f.y))
    | 0x2#4 => some (.andReg (regOf f.x) (regOf f.y))
    | 0x3#4 => some (.xorReg (regOf f.x) (regOf f.y))
    | 0x4#4 => some (.addReg (regOf f.x) (regOf f.y))
    | 0x5#4 => some (.sub (regOf f.x) (regOf f.y))
    | 0x6#4 => some (.shr (regOf f.x) (regOf f.y))
    | 0x7#4 => some (.subn (regOf f.x) (regOf f.y))
    | 0xE#4 => some (.shl (regOf f.x) (regOf f.y))
    | _ => none
  | 0x9#4 =>
    match f.n with
    | 0x0#4 => some (.sneReg (regOf f.x) (regOf f.y))
    | _ => none
  | 0xA#4 => some (.ldI f.nnn)
  | 0xD#4 => some (.drw (regOf f.x) (regOf f.y) f.n.toNat)
  | 0xF#4 =>
    match f.nn with
    | 0x33#8 => some (.bcd (regOf f.x))
    | 0x55#8 => some (.stm (regOf f.x))
    | 0x65#8 => some (.ldm (regOf f.x))
    | _ => none
  | _ => none

/-- The decoder on the two fetched bytes, `b0` the one at pc (20_memory.md R50): an instruction, or the word rejected
by name. Total (R85). -/
def decode (b0 b1 : Byte) : Except Reject Instr :=
  match dispatch (fieldsOf b0 b1) with
  | some i => .ok i
  | none => .error (.unknownInstruction b0 b1)

/-- The decoder on any bytes: an instruction and the bytes after it. Every instruction is two bytes (R80). -/
def decodeBytes : List Byte → Except Reject (Instr × List Byte)
  | b0 :: b1 :: rest =>
    match decode b0 b1 with
    | .ok i => .ok (i, rest)
    | .error r => .error r
  | [_] => .error .tooShort
  | [] => .error .tooShort

/-- The bytes a table word of `nbits` bits stands for, high byte first (20_memory.md R50, 30_encoding.md R80). -/
def tableBytes (nbits w : Nat) : Byte × Byte :=
  (BitVec.ofNat 8 (w % 2 ^ nbits / 256), BitVec.ofNat 8 (w % 2 ^ nbits))

/-- The instruction the decoder reads from a word numbered as spec/opcode_table.json numbers it. -/
def decodeTableWord (nbits w : Nat) : Option Instr :=
  match decode (tableBytes nbits w).1 (tableBytes nbits w).2 with
  | .ok i => some i
  | .error _ => none

/-- One row of the opcode map: a word w selects it when `(w & mask) = value` (R84). -/
structure OpcodeRow where
  mnemonic : String
  mask : Word
  value : Word
  deriving DecidableEq, Repr

/-- `(w & mask) = match` (R84). -/
abbrev OpcodeRow.selects (r : OpcodeRow) (w : Word) : Prop := w &&& r.mask = r.value

/-- The 24 rows of R84, in its order. The decoder does not read this table: that the two agree is a claim. -/
def opcodeTable : List OpcodeRow :=
  [⟨"CLS", 0xFFFF, 0x00E0⟩, ⟨"RET", 0xFFFF, 0x00EE⟩, ⟨"JP", 0xF000, 0x1000⟩, ⟨"CALL", 0xF000, 0x2000⟩,
   ⟨"SE_IMM", 0xF000, 0x3000⟩, ⟨"SNE_IMM", 0xF000, 0x4000⟩, ⟨"SE_REG", 0xF00F, 0x5000⟩, ⟨"SNE_REG", 0xF00F, 0x9000⟩] ++
  [⟨"LD_IMM", 0xF000, 0x6000⟩, ⟨"ADD_IMM", 0xF000, 0x7000⟩, ⟨"LD_REG", 0xF00F, 0x8000⟩, ⟨"OR", 0xF00F, 0x8001⟩,
   ⟨"AND", 0xF00F, 0x8002⟩, ⟨"XOR", 0xF00F, 0x8003⟩, ⟨"ADD_REG", 0xF00F, 0x8004⟩, ⟨"SUB", 0xF00F, 0x8005⟩] ++
  [⟨"SHR", 0xF00F, 0x8006⟩, ⟨"SUBN", 0xF00F, 0x8007⟩, ⟨"SHL", 0xF00F, 0x800E⟩, ⟨"LD_I", 0xF000, 0xA000⟩,
   ⟨"DRW", 0xF000, 0xD000⟩, ⟨"BCD", 0xF0FF, 0xF033⟩, ⟨"STM", 0xF0FF, 0xF055⟩, ⟨"LDM", 0xF0FF, 0xF065⟩]

/-- Format NNN (R82): opcat, nnn. -/
def wordNNN (op : BitVec 4) (nnn : Addr) : Word := op ++ nnn

/-- Formats XNN and XKK (R82): opcat, x, nn. -/
def wordXNN (op : BitVec 4) (x : Reg) (nn : Byte) : Word := op ++ regField x ++ nn

/-- Format XYN (R82): opcat, x, y, n. -/
def wordXYN (op : BitVec 4) (x y : Reg) (n : BitVec 4) : Word := op ++ regField x ++ (regField y ++ n)

/-- The instruction word, from the formats of R82 and the patterns of R84. -/
def encodeWord : Instr → Word
  | .cls => 0x00E0#16
  | .ret => 0x00EE#16
  | .jp nnn => wordNNN 0x1 nnn
  | .call nnn => wordNNN 0x2 nnn
  | .seImm x nn => wordXNN 0x3 x nn
  | .sneImm x nn => wordXNN 0x4 x nn
  | .seReg x y => wordXYN 0x5 x y 0x0
  | .sneReg x y => wordXYN 0x9 x y 0x0
  | .ldImm x nn => wordXNN 0x6 x nn
  | .addImm x nn => wordXNN 0x7 x nn
  | .ldReg x y => wordXYN 0x8 x y 0x0
  | .orReg x y => wordXYN 0x8 x y 0x1
  | .andReg x y => wordXYN 0x8 x y 0x2
  | .xorReg x y => wordXYN 0x8 x y 0x3
  | .addReg x y => wordXYN 0x8 x y 0x4
  | .sub x y => wordXYN 0x8 x y 0x5
  | .shr x y => wordXYN 0x8 x y 0x6
  | .subn x y => wordXYN 0x8 x y 0x7
  | .shl x y => wordXYN 0x8 x y 0xE
  | .ldI nnn => wordNNN 0xA nnn
  | .drw x y n => wordXYN 0xD x y (BitVec.ofNat 4 n)
  | .bcd x => wordXNN 0xF x 0x33
  | .stm x => wordXNN 0xF x 0x55
  | .ldm x => wordXNN 0xF x 0x65

/-- The high byte of a word, the one at the lower address (20_memory.md R50). -/
def hiByte (w : Word) : Byte := w.extractLsb' 8 8

/-- The low byte of a word. -/
def loByte (w : Word) : Byte := w.extractLsb' 0 8

/-- The encoder: the two bytes of an instruction in memory order (R80; 20_memory.md R50). -/
def encode (i : Instr) : List Byte := [hiByte (encodeWord i), loByte (encodeWord i)]

end Sys2Proof
end

