-- ==== Sys2Proof/Config.lean ====
section
/-! DEFINITION. The parameters of the block (00_scope.md R7): the fixed numbers as constants, the three open ones as a
record that State carries unchanged (log 1). -/

namespace Sys2Proof

/-- `MEM_SIZE`: bytes in the MemoryImage, addresses 0 to 4095. -/
abbrev memSize : Nat := 4096

/-- `FONT_BASE`: first address of the font region. -/
abbrev fontBase : Nat := 0x050

/-- `FONT_LEN`: bytes in the font region, 16 glyphs of 5 bytes. -/
abbrev fontLen : Nat := 80

/-- `PROG_BASE`: load address of the program and value of pc after load. -/
abbrev progBase : Nat := 0x200

/-- `MAX_ROM`: largest accepted program length, `MEM_SIZE - PROG_BASE`. -/
abbrev maxRom : Nat := 3584

/-- `FB_ROWS`. -/
abbrev fbRows : Nat := 32

/-- `FB_COLS`. -/
abbrev fbCols : Nat := 64

/-- The OPEN parameters of R7, each "an argument of the model". Every meaning is written for every value of them. -/
structure Config where
  /-- `STACK_CAP`: the most entries the call stack may hold, or none (10_state.md R29). -/
  stackCap : Option Nat
  /-- `SHL_FLAG_GT`: false, 8XYE sets VF from `>= 0x80`; true, from `> 0x80` (42_register_alu.md R150). -/
  shlFlagGt : Bool
  /-- `FONT`: the 80 glyph bytes (10_state.md R35). -/
  font : Vector Byte 80
  deriving DecidableEq, Repr

/-- Glyphs 0 to 3 of the default font (10_state.md R35). -/
def glyphs03 : Vector Byte 20 :=
  #v[0xF0, 0x90, 0x90, 0x90, 0xF0,  0x20, 0x60, 0x20, 0x20, 0x70,
     0xF0, 0x10, 0xF0, 0x80, 0xF0,  0xF0, 0x10, 0xF0, 0x10, 0xF0]

/-- Glyphs 4 to 7. -/
def glyphs47 : Vector Byte 20 :=
  #v[0x90, 0x90, 0xF0, 0x10, 0x10,  0xF0, 0x80, 0xF0, 0x10, 0xF0,
     0xF0, 0x80, 0xF0, 0x90, 0xF0,  0xF0, 0x10, 0x20, 0x40, 0x40]

/-- Glyphs 8 to B. -/
def glyphs8B : Vector Byte 20 :=
  #v[0xF0, 0x90, 0xF0, 0x90, 0xF0,  0xF0, 0x90, 0xF0, 0x10, 0xF0,
     0xF0, 0x90, 0xF0, 0x90, 0x90,  0xE0, 0x90, 0xE0, 0x90, 0xE0]

/-- Glyphs C to F. -/
def glyphsCF : Vector Byte 20 :=
  #v[0xF0, 0x80, 0x80, 0x80, 0xF0,  0xE0, 0x90, 0x90, 0x90, 0xE0,
     0xF0, 0x80, 0xF0, 0x80, 0xF0,  0xF0, 0x80, 0xF0, 0x80, 0x80]

/-- The default of `FONT`, glyph by glyph (R35, there marked "from general knowledge, not in source"). PRESUMED,
unsafe: log 4. -/
def defaultFont : Vector Byte 80 :=
  (glyphs03 ++ glyphs47 ++ glyphs8B ++ glyphsCF : Vector Byte (20 + 20 + 20 + 20))

/-- The defaults of R7: no stack cap (DESIGN CHOICE of the spec, D4, log 2), `>= 0x80` (D5, log 3), the usual font
(D8, log 4). -/
def Config.default : Config :=
  { stackCap := none, shlFlagGt := false, font := defaultFont }

end Sys2Proof
end

