-- ==== Sys2Proof/Machine/State.lean ====
section
/-! DEFINITION. The state of the block (10_state.md R43), the reasons a step can stop, and the state right after
reset (10_state.md R41). -/

namespace Sys2Proof.Machine

/-- The written bytes of the MemoryImage, as (address, byte) pairs in the canonical form `Memory.wf`. An address with
no pair holds its byte of reset (`unlisted`). -/
abbrev Memory := List Host.Cell

/-- What a step says beside completing (60_exceptions.md R226, R227), as the structured value R227 asks for. -/
inductive Diagnostic where
  /-- 00EE on an empty call stack (41_control_flow.md R120). -/
  | emptyReturn
  /-- A word of no row, with its two bytes (40_instruction_cycle.md R106). -/
  | unknownInstruction (b0 b1 : Byte)
  deriving DecidableEq, Repr

/-- The access that left the address space (60_exceptions.md R220). -/
inductive AccessKind where
  | fetch
  | data
  deriving DecidableEq, Repr

/-- The faults of 60_exceptions.md. A fault is the outcome of the step; nothing of the step is committed and nothing is
stored (R221, R222). -/
inductive Fault where
  /-- R220: an access at 4096 or above. Raised by the fetch of any step (kind fetch) and by DRW, BCD, STM, LDM (kind
  data); `addr` is the lowest address of the range that is out of bounds. The manual names this fault; payload and
  state after it are the spec's decision D2. Safe (log 9). -/
  | boundsViolation (kind : AccessKind) (addr : Nat)
  /-- R223: CALL with STACK_CAP = c and c entries on the stack. Safe: the machine stops where an uncapped one goes on
  (D4, log 2). -/
  | stackOverflow
  deriving DecidableEq, Repr

/-- Why there is no outcome. -/
inductive Refusal where
  /-- An instruction with no meaning yet: raised by no arm of this model. Safe. -/
  | notModelled (mnemonic : String)
  /-- 10_state.md R37, R100: a step before any successful load, when the block has no state. Raised by `Block.step`
  alone. Safe (D13, log 7). -/
  | noProgramLoaded
  deriving DecidableEq, Repr

/-- The architectural state, exactly the tuple of R43, and two fields of the model's own: `log`, the host's log sink
(R230, log 5), and `cfg`, the open parameters of 00_scope.md R7 (log 1). -/
structure State where
  /-- V[0] to V[15]; VF is V[15] (R20, R22). -/
  v : Vector Byte 16
  /-- The index register I (R24). -/
  i : Word
  /-- The program counter (R25). -/
  pc : Word
  /-- The call stack, bottom first: the tail is the top (R28). -/
  stack : List Word
  /-- FB[0] to FB[31], row 0 at the top (R31). -/
  fb : Vector Row 32
  /-- The MemoryImage (R34). -/
  mem : Memory
  /-- The diagnostics emitted so far, oldest first. Model's own. -/
  log : List Diagnostic
  /-- STACK_CAP, SHL_FLAG_GT and FONT. Model's own; nothing changes it. -/
  cfg : Config
  deriving DecidableEq, Repr

/-- The outcome of an instruction or a step (40_instruction_cycle.md R100). -/
abbrev Result := Host.Outcome State Fault Refusal

/-- The state right after the reset of this block, a successful `load` (70_reset_and_hazards.md R260), of the empty
ROM (R264) with the default parameters: 10_state.md R41. No byte is listed, so memory holds the font and zeros.
DESIGN CHOICE which ROM: log 6. The framebuffer's zeros are the spec's decision D7: log 8. -/
def State.reset : State :=
  { v := Vector.replicate 16 0
    i := 0
    pc := 0x200
    stack := []
    fb := Vector.replicate 32 0
    mem := []
    log := []
    cfg := Config.default }

end Sys2Proof.Machine
end

