-- ==== Sys2Proof/Machine/Ops.lean ====
section
/-! DEFINITION. The named operations over registers, stack, memory and log: the pseudocode primitives of
00_scope.md R10. -/

namespace Sys2Proof.Machine

/-! ### register_file -/

/-- `V[x]` (10_state.md R20). -/
def State.getV (s : State) (x : Reg) : Byte := s.v.get x

/-- `V[x] <- b`: no register is hardwired (R20). -/
def State.setV (s : State) (x : Reg) (b : Byte) : State := { s with v := s.v.set x b }

/-- VF = V[15] (R22). -/
def vf : Reg := 15

/-- `I <- w` (R24). -/
def State.setI (s : State) (w : Word) : State := { s with i := w }

/-- `pc <- w` (R25). -/
def State.setPc (s : State) (w : Word) : State := { s with pc := w }

/-- Phase 3 of the cycle, `pc <- pc +16 2` (40_instruction_cycle.md R103); modulo 2^16, D11, log 11. -/
def State.advance (s : State) : State := s.setPc (s.pc + 2)

/-- The effect of a taken skip: a further 2 (R103, R105). The skipped word is not looked at. -/
def State.skipIf (s : State) (c : Bool) : State := if c then s.setPc (s.pc + 2) else s

/-! ### call_stack -/

/-- `push(w)`: append at the tail (10_state.md R28). -/
def State.push (s : State) (w : Word) : State := { s with stack := s.stack ++ [w] }

/-- `pop()` on a stack whose tail is known: drop the tail (R28). -/
def State.dropTop (s : State) : State := { s with stack := s.stack.dropLast }

/-- `STACK_CAP = some c and depth = c` (41_control_flow.md R122). -/
def State.stackFull (s : State) : Bool := s.cfg.stackCap == some s.stack.length

/-! ### Diagnostics and faults -/

/-- `emit d`: append to the log sink (60_exceptions.md R226 to R230). -/
def State.emit (s : State) (d : Diagnostic) : State := { s with log := s.log ++ [d] }

/-- `raise f`: TAKING AN EXCEPTION on this machine. The step ends with the fault as its outcome; nothing is saved, no
mode or vector exists, and no state of the step is committed (60_exceptions.md R221, R222). There is no return from it
(R225): only a load leaves the faulted condition. -/
def raise (f : Fault) : Result := .fault f

/-! ### MemoryImage -/

/-- What an address with no pair reads as: the contents after load of the empty ROM, FONT in 0x050 to 0x09F and zero
elsewhere (10_state.md R41, 20_memory.md R53; log 20). -/
def unlisted (c : Config) (a : Nat) : Byte :=
  if h : fontBase ≤ a ∧ a < fontBase + fontLen then
    c.font[a - fontBase]'(by simp only [fontBase, fontLen] at *; omega)
  else 0

/-- The byte paired with an address. -/
def Memory.lookup : Memory → Nat → Option Byte
  | [], _ => none
  | (k, b) :: m, a => if k = a then some b else Memory.lookup m a

/-- The memory with no pair for an address. -/
def Memory.erase : Memory → Nat → Memory
  | [], _ => []
  | (k, b) :: m, a => if k = a then Memory.erase m a else (k, b) :: Memory.erase m a

/-- The memory with one pair for an address, at its place in the order. -/
def Memory.insert : Memory → Nat → Byte → Memory
  | [], a, v => [(a, v)]
  | (k, b) :: m, a, v =>
    if a < k then (a, v) :: (k, b) :: m
    else if k = a then (a, v) :: m
    else (k, b) :: Memory.insert m a v

/-- The byte at an address: the most recent write, else the reset value (20_memory.md R61). -/
def Memory.read (c : Config) (m : Memory) (a : Nat) : Byte := (Memory.lookup m a).getD (unlisted c a)

/-- Store a byte, keeping the canonical form: writing what an unlisted address reads as removes the pair. -/
def Memory.write (c : Config) (m : Memory) (a : Nat) (b : Byte) : Memory :=
  if b = unlisted c a then Memory.erase m a else Memory.insert m a b

/-- The canonical form: addresses strictly rising, inside 0 to 4095 (20_memory.md R53), and no pair equal to what its
address reads as unlisted. -/
abbrev Memory.wf (c : Config) (m : Memory) : Prop :=
  m.Pairwise (fun e e' => e.1 < e'.1) ∧ ∀ e ∈ m, e.1 < memSize ∧ e.2 ≠ unlisted c e.1

/-- `MemRead(a, 1)`, "defined only for 0 <= addr <= 4095" (R10): every transition checks its range first (log 21). -/
def State.memByte (s : State) (a : Nat) : Byte := Memory.read s.cfg s.mem a

/-- `MemWrite(a, 1, b)`, defined only for addresses 0 to 4095 (R10), as `memByte`. -/
def State.setByte (s : State) (a : Nat) (b : Byte) : State := { s with mem := Memory.write s.cfg s.mem a b }

/-- The bytes at `base`, `base + 1`, ... (20_memory.md R51). -/
def State.readBytes (s : State) (base : Nat) : Nat → List Byte
  | 0 => []
  | n + 1 => s.memByte base :: s.readBytes (base + 1) n

/-- Store bytes at `base`, `base + 1`, ..., in increasing order (R51). -/
def State.writeBytes (s : State) (base : Nat) : List Byte → State
  | [] => s
  | b :: bs => (s.setByte base b).writeBytes (base + 1) bs

/-- The range check of a data access, made on the whole range before any byte moves (20_memory.md R55, R56): `len`
bytes at `base`, nothing to check when there is none. It reports the lowest address out of bounds (43_index_memory.md
R174). -/
def withRange (base len : Nat) (r : Result) : Result :=
  if len ≥ 1 ∧ base + len - 1 ≥ memSize then raise (.boundsViolation .data (max base memSize)) else r

/-- Phase 1, fetch (40_instruction_cycle.md R101): the two bytes at pc and pc + 1, or the fetch fault with the lowest
address out of bounds. -/
def State.fetch (s : State) : Except Fault (Byte × Byte) :=
  if s.pc.toNat ≥ memSize then .error (.boundsViolation .fetch s.pc.toNat)
  else if s.pc.toNat + 1 ≥ memSize then .error (.boundsViolation .fetch (s.pc.toNat + 1))
  else .ok (s.memByte s.pc.toNat, s.memByte (s.pc.toNat + 1))

end Sys2Proof.Machine
end

