-- ==== Sys2Proof/Machine/Flags.lean ====
section
/-! DEFINITION. Every flag computation (42_register_alu.md R152, 44_display.md R197). A flag value is the byte 0 or 1. -/

namespace Sys2Proof.Machine

/-- A collision flag as the byte 1 or 0. -/
def flagOf (p : Bool) : Byte := if p then 1 else 0

/-- Carry of `a + b`: 1 if `a + b > 255` as natural numbers. -/
def carryFlag (a b : Byte) : Byte := if a.toNat + b.toNat > 255 then 1 else 0

/-- No-borrow of `a - b`: 1 if `a >= b`. DEDUCED at equality: log 19. -/
def noBorrowFlag (a b : Byte) : Byte := if a.toNat ≥ b.toNat then 1 else 0

/-- Shift-out of a right shift: bit 0 of the value being shifted. -/
def shrFlag (v : Byte) : Byte := v &&& 1

/-- Shift-out of a left shift: `>= 0x80`, or `> 0x80` when `SHL_FLAG_GT` (R150; 90_conflicts.md C2; log 3). -/
def shlFlag (gt : Bool) (v : Byte) : Byte :=
  match gt with
  | false => if v.toNat ≥ 0x80 then 1 else 0
  | true => if v.toNat > 0x80 then 1 else 0

/-- The sprite_collision_detector on one row: `(target_row AND shifted) != 0` (R197). -/
def collides (target mask : Row) : Bool := target &&& mask != 0

end Sys2Proof.Machine
end

