-- ==== Sys2Proof/Machine/Alu.lean ====
section
/-! DEFINITION. Register load and arithmetic (42_register_alu.md). Operands are read first, then the writes are made in
the order of the table row, each visible to the next (R153; D6 log 14, D21 log 15). None of these faults. -/

namespace Sys2Proof.Machine

/-- The writes of 8XY4, 8XY5, 8XY7: first V[x], then VF. With x = F the flag is what remains. -/
def State.resultThenFlag (s : State) (x : Reg) (result flag : Byte) : State := (s.setV x result).setV vf flag

/-- The three writes of 8XY6 and 8XYE: the copy of V[y], the flag of the copied value, the shift of what V[x] then
holds (R148, R150). -/
def State.copyFlagShift (s : State) (x y : Reg) (flag shift : Byte → Byte) : State :=
  let copied := s.setV x (s.getV y)
  let flagged := copied.setV vf (flag (copied.getV x))
  flagged.setV x (shift (flagged.getV x))

/-- LD_IMM, 6XNN (R140). -/
def execLdImm (x : Reg) (nn : Byte) (s : State) : Result := .next (s.setV x nn)

/-- ADD_IMM, 7XNN (R141): modulo 256, no carry recorded. -/
def execAddImm (x : Reg) (nn : Byte) (s : State) : Result := .next (s.setV x (s.getV x + nn))

/-- LD_REG, 8XY0 (R142). -/
def execLdReg (x y : Reg) (s : State) : Result := .next (s.setV x (s.getV y))

/-- OR, 8XY1 (R143): VF is not written unless x = F (D20, log 16). -/
def execOrReg (x y : Reg) (s : State) : Result := .next (s.setV x (s.getV x ||| s.getV y))

/-- AND, 8XY2 (R144). -/
def execAndReg (x y : Reg) (s : State) : Result := .next (s.setV x (s.getV x &&& s.getV y))

/-- XOR, 8XY3 (R145). -/
def execXorReg (x y : Reg) (s : State) : Result := .next (s.setV x (s.getV x ^^^ s.getV y))

/-- ADD_REG, 8XY4 (R146). -/
def execAddReg (x y : Reg) (s : State) : Result :=
  .next (s.resultThenFlag x (s.getV x + s.getV y) (carryFlag (s.getV x) (s.getV y)))

/-- SUB, 8XY5 (R147): V[x] - V[y]. -/
def execSub (x y : Reg) (s : State) : Result :=
  .next (s.resultThenFlag x (s.getV x - s.getV y) (noBorrowFlag (s.getV x) (s.getV y)))

/-- SHR, 8XY6 (R148). -/
def execShr (x y : Reg) (s : State) : Result := .next (s.copyFlagShift x y shrFlag (· >>> 1))

/-- SUBN, 8XY7 (R149): V[y] - V[x]. -/
def execSubn (x y : Reg) (s : State) : Result :=
  .next (s.resultThenFlag x (s.getV y - s.getV x) (noBorrowFlag (s.getV y) (s.getV x)))

/-- SHL, 8XYE (R150). -/
def execShl (x y : Reg) (s : State) : Result := .next (s.copyFlagShift x y (shlFlag s.cfg.shlFlagGt) (· <<< 1))

end Sys2Proof.Machine
end

