-- ==== Sys2Proof/Machine/Operands.lean ====
section
/-! DEFINITION. Every operand form (30_encoding.md R83, 44_display.md R191, R192): how an instruction's fields become
values and addresses. Register operands are `State.getV`; NN is used as it stands. -/

namespace Sys2Proof.Machine

/-- NNN as a 16-bit value: `zext_16(nnn)` (R83). -/
def zext16 (nnn : Addr) : Word := nnn.setWidth 16

/-- The effective address `I + k`, a sum of natural numbers (20_memory.md R58; D12, log 12). -/
def State.ea (s : State) (k : Nat) : Nat := s.i.toNat + k

/-- V[0] to V[x] in order, the block STM stores (43_index_memory.md R172). -/
def State.regsUpTo (s : State) (x : Reg) : List Byte := s.v.toList.take (x.val + 1)

/-- The column of a sprite's top-left pixel, `V[x] mod 64` (44_display.md R192). -/
def State.spriteCol (s : State) (x : Reg) : Nat := (s.getV x).toNat % fbCols

/-- The row of a sprite's top-left pixel, `V[y] mod 32` (R192). -/
def State.spriteRow (s : State) (y : Reg) : Nat := (s.getV y).toNat % fbRows

/-- The N sprite bytes at I to I + N - 1, top row first (R191). -/
def State.sprite (s : State) (n : Nat) : List Byte := s.readBytes (s.ea 0) n

end Sys2Proof.Machine
end

