-- ==== Sys2Proof/Machine/Control.lean ====
section
/-! DEFINITION. Control flow (41_control_flow.md). In every meaning `s.pc` is the post-advance value, the address of
the next sequential instruction (40_instruction_cycle.md R103). -/

namespace Sys2Proof.Machine

/-- RET, 00EE (R120): pop into pc; on an empty stack a diagnostic, pc as already advanced. -/
def execRet (s : State) : Result :=
  match s.stack.getLast? with
  | none => .next (s.emit .emptyReturn)
  | some w => .next (s.dropTop.setPc w)

/-- JP, 1NNN (R121). -/
def execJp (nnn : Addr) (s : State) : Result := .next (s.setPc (zext16 nnn))

/-- CALL, 2NNN (R122): push the post-advance pc, then jump; with a cap c, StackOverflow at depth c. -/
def execCall (nnn : Addr) (s : State) : Result :=
  if s.stackFull then raise .stackOverflow else .next ((s.push s.pc).setPc (zext16 nnn))

/-- SE_IMM, 3XNN (R123). -/
def execSeImm (x : Reg) (nn : Byte) (s : State) : Result := .next (s.skipIf (s.getV x == nn))

/-- SNE_IMM, 4XNN (R124). -/
def execSneImm (x : Reg) (nn : Byte) (s : State) : Result := .next (s.skipIf (s.getV x != nn))

/-- SE_REG, 5XY0 (R125). -/
def execSeReg (x y : Reg) (s : State) : Result := .next (s.skipIf (s.getV x == s.getV y))

/-- SNE_REG, 9XY0 (R126). -/
def execSneReg (x y : Reg) (s : State) : Result := .next (s.skipIf (s.getV x != s.getV y))

end Sys2Proof.Machine
end

