-- ==== Sys2Proof/Machine/Display.lean ====
section
/-! DEFINITION. Display (44_display.md): clear, framebuffer_xor_blit, sprite_collision_detector, draw. -/

namespace Sys2Proof.Machine

/-- The 64-bit mask of a sprite byte at a column, `(zext_64(s) << 56) >> cx` (R193): pixels right of column 63 are
lost. -/
def rowMask (b : Byte) (cx : Nat) : Row := (b.setWidth 64 <<< 56) >>> cx

/-- The framebuffer and the collision flag while a sprite is drawn. -/
structure DrawState where
  rows : Vector Row 32
  collision : Bool
  deriving DecidableEq, Repr

/-- One sprite byte at framebuffer row `r`: skipped at the bottom (R194); else the detector on the row before the
change (R197, sticky), then the XOR (R196). -/
def DrawState.drawRow (d : DrawState) (cx r : Nat) (b : Byte) : DrawState :=
  if h : r < 32 then
    { rows := d.rows.set r (d.rows[r] ^^^ rowMask b cx)
      collision := d.collision || collides d.rows[r] (rowMask b cx) }
  else d

/-- The loop of R195 over the sprite bytes, at rows `r`, `r + 1`, ... -/
def DrawState.drawRows (d : DrawState) (cx r : Nat) : List Byte → DrawState
  | [] => d
  | b :: bs => (d.drawRow cx r b).drawRows cx (r + 1) bs

/-- `draw_sprite(sprite_bytes, x, y) -> collision`: the flag starts false at every draw (R197). -/
def drawSprite (rows : Vector Row 32) (cx cy : Nat) (bytes : List Byte) : DrawState :=
  DrawState.drawRows { rows := rows, collision := false } cx cy bytes

/-- A new framebuffer. -/
def State.setFb (s : State) (fb : Vector Row 32) : State := { s with fb := fb }

/-- CLS, 00E0 (R190). -/
def execCls (s : State) : Result := .next (s.setFb (Vector.replicate 32 0))

/-- DRW, DXYN (R195): the whole sprite is in bounds or nothing is drawn (D15, log 13); VF is always written. -/
def execDrw (x y : Reg) (n : Nat) (s : State) : Result :=
  let d := drawSprite s.fb (s.spriteCol x) (s.spriteRow y) (s.sprite n)
  withRange (s.ea 0) n (.next ((s.setFb d.rows).setV vf (flagOf d.collision)))

end Sys2Proof.Machine
end

