-- ==== Sys2Proof/Machine/Index.lean ====
section
/-! DEFINITION. Index register and memory (43_index_memory.md). I is the base of every access and none of them moves
it (D20, log 16). -/

namespace Sys2Proof.Machine

/-- The hundreds, tens and units digits of a byte, each a byte of its own (R171). -/
def digits (v : Byte) : List Byte :=
  [BitVec.ofNat 8 (v.toNat / 100), BitVec.ofNat 8 (v.toNat / 10 % 10), BitVec.ofNat 8 (v.toNat % 10)]

/-- V[j] <- the byte at base + j, for j = 0 to x (R173). -/
def State.loadRegs (s : State) (x : Reg) (base : Nat) : State :=
  { s with v := Vector.ofFn fun j : Reg => if j ≤ x then s.memByte (base + j) else s.getV j }

/-- LD_I, ANNN (R170). -/
def execLdI (nnn : Addr) (s : State) : Result := .next (s.setI (zext16 nnn))

/-- BCD, FX33 (R171). -/
def execBcd (x : Reg) (s : State) : Result :=
  withRange (s.ea 0) 3 (.next (s.writeBytes (s.ea 0) (digits (s.getV x))))

/-- STM, FX55 (R172). -/
def execStm (x : Reg) (s : State) : Result :=
  withRange (s.ea 0) (x.val + 1) (.next (s.writeBytes (s.ea 0) (s.regsUpTo x)))

/-- LDM, FX65 (R173). -/
def execLdm (x : Reg) (s : State) : Result :=
  withRange (s.ea 0) (x.val + 1) (.next (s.loadRegs x (s.ea 0)))

end Sys2Proof.Machine
end

