-- ==== Sys2Proof/Machine/Unknown.lean ====
section
/-! DEFINITION. The unknown instruction (40_instruction_cycle.md R106) and the renderings of the messages
(60_exceptions.md R224, R226 to R228). -/

namespace Sys2Proof.Machine

/-- UNKNOWN: one diagnostic with the two bytes; "no state change beyond PC advance" (R106). Not a trap (R86). -/
def execUnknown (b0 b1 : Byte) (s : State) : Result := .next (s.emit (.unknownInstruction b0 b1))

/-- An upper-case hexadecimal digit. -/
def hexDigit (n : Nat) : Char := "0123456789ABCDEF".toList.getD n '0'

/-- A byte in two upper-case hexadecimal digits. -/
def hexByte (b : Byte) : String := String.ofList [hexDigit (b.toNat / 16), hexDigit (b.toNat % 16)]

/-- The text of a diagnostic: R226 (the document's words), R227 (the number format is the spec's, D10, log 22). -/
def Diagnostic.text : Diagnostic → String
  | .emptyReturn => "Warning: attempted to return while stack is empty."
  | .unknownInstruction b0 b1 => "Unknown instruction " ++ hexByte b0 ++ hexByte b1 ++ "; skipping"

/-- The number R224 gives a fault "for a model that wants numbers"; it is no state (D2, log 9). -/
def Fault.number : Fault → Nat
  | .boundsViolation .fetch _ => 1
  | .boundsViolation .data _ => 2
  | .stackOverflow => 3

end Sys2Proof.Machine
end

