-- ==== Sys2Proof/Machine/Step.lean ====
section
/-! DEFINITION. The step: one whole instruction cycle (40_instruction_cycle.md R100 to R106). -/

namespace Sys2Proof.Machine

/-- Fetch (R101), decode (R102), advance pc (R103), dispatch (R104): the decoded instruction, or the unknown one
(R106). A fault leaves no state: nothing is committed, the advance included (60_exceptions.md R221). -/
def step (s : State) : Host.Outcome State Fault Refusal :=
  match s.fetch with
  | .error f => raise f
  | .ok (b0, b1) =>
    match decode b0 b1 with
    | .ok i => exec i s.advance
    | .error _ => execUnknown b0 b1 s.advance

/-- The state with an instruction word, numbered as spec/opcode_table.json numbers it, where the next step fetches: at
pc and pc + 1, high byte first (20_memory.md R50). If pc has no two-byte window, pc is first put to PROG_BASE (log 25). -/
def State.withFetchWord (s : State) (nbits w : Nat) : State :=
  let at' := if s.pc.toNat + 1 < memSize then s else s.setPc 0x200
  at'.writeBytes at'.pc.toNat [(tableBytes nbits w).1, (tableBytes nbits w).2]

end Sys2Proof.Machine
end

