-- ==== Sys2Proof/Machine/Block.lean ====
section
/-! DEFINITION. The block as the host sees it (10_state.md R36 to R40, 70_reset_and_hazards.md R260 to R264): `load`,
`step` with or without a program, and the read-only outputs. -/

namespace Sys2Proof.Machine

/-- The block: "before the first successful load there is no state at all" (R43, R37), only the fixed parameters. -/
inductive Block where
  | empty (cfg : Config)
  | loaded (s : State)
  deriving DecidableEq, Repr

/-- The parameters the block was built with. -/
def Block.cfg : Block → Config
  | .empty c => c
  | .loaded s => s.cfg

/-- The diagnostics the host has been given so far. -/
def Block.log : Block → List Diagnostic
  | .empty _ => []
  | .loaded s => s.log

/-- What a load tells its caller (60_exceptions.md R228): the odd-length advisory or nothing on success, or the
failure. -/
inductive LoadMessage where
  | oddLength
  | sizeExceeded
  deriving DecidableEq, Repr

/-- The texts of R228; the advisory's is the spec's own (D17, log 22). -/
def LoadMessage.text : LoadMessage → String
  | .oddLength => "Warning: ROM length is odd."
  | .sizeExceeded => "ROM size too big"

/-- The outcome of a load (R36). -/
inductive LoadResult where
  | loaded (advisory : Option LoadMessage)
  | failed (message : LoadMessage)
  deriving DecidableEq, Repr

/-- The state a successful load of `rom` makes (R260): everything of reset, the rom at 0x200 and up. The parameters
and the host's log are not state of the block and are carried over (log 1, log 5). -/
def State.load (c : Config) (log : List Diagnostic) (rom : List Byte) : State :=
  State.writeBytes { State.reset with cfg := c, log := log } progBase rom

/-- `load(rom)`: the whole state is replaced (R260), or, when the rom is too long, the block stays as it was (R261). An
odd length is accepted with an advisory (R263). -/
def Block.load (b : Block) (rom : List Byte) : Block × LoadResult :=
  if rom.length + progBase > memSize then (b, .failed .sizeExceeded)
  else (.loaded (State.load b.cfg b.log rom), .loaded (if rom.length % 2 = 1 then some .oddLength else none))

/-- `step` as the host calls it (R37, R100): refused when no program is loaded. -/
def Block.step : Block → Result
  | .empty _ => .refused .noProgramLoaded
  | .loaded s => Machine.step s

/-- The block after the host called `step`: the next state, or the block unchanged (60_exceptions.md R221, R225). -/
def Block.afterStep (b : Block) : Block :=
  match b.step with
  | .next s => .loaded s
  | .fault _ => b
  | .refused _ => b

/-- The framebuffer read port (R33). -/
def State.snapshot (s : State) : Vector Row 32 := s.fb

/-- `pixel(r, c) = FB[r][63 - c]` (R31; DEDUCED, log 18). -/
def pixel (fb : Vector Row 32) (r : Fin 32) (c : Fin 64) : Bool := (fb.get r).getLsbD (63 - c.val)

/-- The optional content-change output of 40_instruction_cycle.md R108: true exactly when the step executes 00E0 or
DXYN without fault. A function of the state; no state of its own (D1, log 23). -/
def framebufferTouched (s : State) : Bool :=
  match s.fetch with
  | .error _ => false
  | .ok (b0, b1) =>
    match decode b0 b1 with
    | .ok .cls => true
    | .ok (.drw _ _ _) =>
      match Machine.step s with
      | .next _ => true
      | _ => false
    | _ => false

end Sys2Proof.Machine
end

