-- ==== Sys2Proof/Safety.lean ====
section
/-! DEFINITION. The words claims are stated in: which states a run can be in, what an instruction reads and writes, and
what a step leaves alone. -/

namespace Sys2Proof.Machine

/-- What holds of every state a load or a step can produce. -/
structure State.Inv (s : State) : Prop where
  /-- I <= 0x0FFF (10_state.md R24). -/
  index : s.i.toNat ≤ 0x0FFF
  /-- pc <= 0x1002 (R26). -/
  pc : s.pc.toNat ≤ 0x1002
  /-- Every return address is 2 to 0x1000 (R29). -/
  returns : ∀ e ∈ s.stack, 2 ≤ e.toNat ∧ e.toNat ≤ 0x1000
  /-- A capped stack holds at most its cap (R7, R29). -/
  cap : ∀ c, s.cfg.stackCap = some c → s.stack.length ≤ c
  /-- Memory is in its canonical form. -/
  memory : Memory.wf s.cfg s.mem

/-- The states of runs: what a successful load makes (70_reset_and_hazards.md R260), of any rom and parameters, and
what a step makes of one. -/
inductive Reachable : State → Prop where
  | load (c : Config) (log : List Diagnostic) (rom : List Byte) (h : rom.length ≤ maxRom) :
      Reachable (State.load c log rom)
  | step {s t : State} (h : Reachable s) (hs : step s = .next t) : Reachable t

/-- The pc has a two-byte window, "before a fetch" (40_instruction_cycle.md R101). -/
abbrev State.fetchable (s : State) : Prop := s.pc.toNat + 1 < 4096

/-- The first and second byte at pc. -/
abbrev State.b0 (s : State) : Byte := s.memByte s.pc.toNat
abbrev State.b1 (s : State) : Byte := s.memByte (s.pc.toNat + 1)

/-- `len` bytes at `base` are inside the address space (20_memory.md R55). -/
abbrev inBounds (base len : Nat) : Prop := len = 0 ∨ base + len ≤ 4096

/-- How many bytes at I an instruction transfers (20_memory.md R59). -/
def dataLen : Instr → Nat
  | .drw _ _ n => n
  | .bcd _ => 3
  | .stm x => x.val + 1
  | .ldm x => x.val + 1
  | .cls | .ret | .jp _ | .call _ | .seImm _ _ | .sneImm _ _ | .seReg _ _ | .sneReg _ _ | .ldImm _ _ | .addImm _ _
  | .ldReg _ _ | .orReg _ _ | .andReg _ _ | .xorReg _ _ | .addReg _ _ | .sub _ _ | .shr _ _ | .subn _ _ | .shl _ _
  | .ldI _ => 0

/-- The `reads` column of 10_state.md R21. -/
def regsRead : Instr → Reg → Bool
  | .seImm x _, j | .sneImm x _, j | .addImm x _, j | .bcd x, j => j == x
  | .seReg x y, j | .sneReg x y, j | .orReg x y, j | .andReg x y, j | .xorReg x y, j | .addReg x y, j | .sub x y, j
  | .subn x y, j | .drw x y _, j => j == x || j == y
  | .ldReg _ y, j | .shr _ y, j | .shl _ y, j => j == y
  | .stm x, j => decide (j ≤ x)
  | .ldImm _ _, _ | .ldm _, _ | .cls, _ | .ret, _ | .jp _, _ | .call _, _ | .ldI _, _ => false

/-- The `writes` column of R21, the implicit flag write included. -/
def regsWritten : Instr → Reg → Bool
  | .ldImm x _, j | .addImm x _, j | .ldReg x _, j | .orReg x _, j | .andReg x _, j | .xorReg x _, j => j == x
  | .addReg x _, j | .sub x _, j | .subn x _, j | .shr x _, j | .shl x _, j => j == x || j == vf
  | .drw _ _ _, j => j == vf
  | .ldm x, j => decide (j ≤ x)
  | .seImm _ _, _ | .sneImm _ _, _ | .seReg _ _, _ | .sneReg _ _, _ | .bcd _, _ | .stm _, _ | .cls, _ | .ret, _
  | .jp _, _ | .call _, _ | .ldI _, _ => false

/-- Every byte of memory reads as before. -/
abbrev sameMem (s t : State) : Prop := ∀ a, t.memByte a = s.memByte a

/-- Every byte of memory outside `len` bytes at `base` reads as before. -/
abbrev sameMemOutside (base len : Nat) (s t : State) : Prop :=
  ∀ a, ¬(base ≤ a ∧ a < base + len) → t.memByte a = s.memByte a

/-- Every register outside `w` holds what it held. -/
abbrev sameRegsBut (w : Reg → Bool) (s t : State) : Prop := ∀ j, w j = false → t.getV j = s.getV j

/-- Every register holds what it held. -/
abbrev sameRegs (s t : State) : Prop := ∀ j, t.getV j = s.getV j

/-- A register instruction's frame: everything but the registers of `w` is as before (pc as already advanced). -/
abbrev onlyRegs (w : Reg → Bool) (s t : State) : Prop :=
  sameRegsBut w s t ∧ sameMem s t ∧ t.i = s.i ∧ t.pc = s.pc ∧ t.stack = s.stack ∧ t.fb = s.fb ∧ t.log = s.log ∧
    t.cfg = s.cfg

/-- A control instruction's frame: registers, memory, I, framebuffer and parameters are as before. -/
abbrev onlyControl (s t : State) : Prop :=
  sameRegs s t ∧ sameMem s t ∧ t.i = s.i ∧ t.fb = s.fb ∧ t.cfg = s.cfg

/-- The lit pixels of the sprite DRW draws (44_display.md R191 to R194): sprite row r - cy, its bit 7 - (c - cx), inside
the eight columns from cx = V[x] mod 64 and the n rows from cy = V[y] mod 32. A pixel past the last column or row has
no (r, c). -/
def spritePixel (s : State) (x y : Reg) (n : Nat) (r : Fin 32) (c : Fin 64) : Bool :=
  let cx := (s.getV x).toNat % 64
  let cy := (s.getV y).toNat % 32
  decide (cy ≤ r.val ∧ r.val < cy + n ∧ cx ≤ c.val ∧ c.val < cx + 8) &&
    (s.memByte (s.i.toNat + (r.val - cy))).getLsbD (7 - (c.val - cx))

/-- pc holds the address of a `1NNN` whose NNN is that address: the idle idiom (70_reset_and_hazards.md R268, D14). -/
abbrev State.idle (s : State) : Prop :=
  s.fetchable ∧ ∃ nnn : Addr, decode s.b0 s.b1 = .ok (.jp nnn) ∧ nnn.toNat = s.pc.toNat

end Sys2Proof.Machine
end

