-- ==== Sys2Proof/Certificates/Slice0/Obligations.lean ====
section
/-! DEFINITION. The statements about the model. Where one rests on a decision the spec marks as its own (D<n> of
92_eei_decisions.md) or on the model's choice, its docstring says so. In a statement about `exec`, `s.pc` is the
post-advance value (40_instruction_cycle.md R103). Every statement holds for every value of the open parameters, but for
those about State.reset, which has the defaults. -/

open Sys2Proof Sys2Proof.Machine

/-! ### Encoding (30_encoding.md) -/

/-- Words of the spec's examples, one of each format and family, decode to their instructions. -/
def Obligations.SpecWordsDecodeAsWritten : Prop :=
  decode 0x00 0xE0 = .ok .cls ∧ decode 0x00 0xEE = .ok .ret ∧ decode 0x1A 0xBC = .ok (.jp 0xABC) ∧
  decode 0x33 0x2A = .ok (.seImm 3 0x2A) ∧ decode 0x81 0x26 = .ok (.shr 1 2) ∧ decode 0xA3 0x00 = .ok (.ldI 0x300) ∧
  decode 0xD0 0x12 = .ok (.drw 0 1 2) ∧ decode 0xF1 0x55 = .ok (.stm 1) ∧
  decode 0x51 0x21 = .error (.unknownInstruction 0x51 0x21)

/-- R81: the six fields are the stated bit slices of the word `b0 : b1`, and they overlap as stated. -/
def Obligations.FieldsAreTheBitSlicesOfTheWord : Prop :=
  ∀ b0 b1 : Byte, ∀ w : Word, w = b0 ++ b1 →
    (fieldsOf b0 b1).opcat = w.extractLsb' 12 4 ∧ (fieldsOf b0 b1).x = w.extractLsb' 8 4 ∧
    (fieldsOf b0 b1).y = w.extractLsb' 4 4 ∧ (fieldsOf b0 b1).n = w.extractLsb' 0 4 ∧
    (fieldsOf b0 b1).nn = w.extractLsb' 0 8 ∧ (fieldsOf b0 b1).nnn = w.extractLsb' 0 12 ∧
    (fieldsOf b0 b1).nn = (fieldsOf b0 b1).y ++ (fieldsOf b0 b1).n ∧
    (fieldsOf b0 b1).nnn = (fieldsOf b0 b1).x ++ (fieldsOf b0 b1).nn

/-- Decoding an encoded well-formed instruction gives it back, and the bytes after it. -/
def Obligations.DecodeOfEncodeIsTheInstruction : Prop :=
  ∀ (i : Instr) (rest : List Byte), i.wellFormed = true → decodeBytes (encode i ++ rest) = .ok (i, rest)

/-- Every word has one meaning: what decodes to an instruction is that instruction's encoding. -/
def Obligations.EncodeOfDecodeIsTheWord : Prop :=
  ∀ (b0 b1 : Byte) (i : Instr), decode b0 b1 = .ok i → i.wellFormed = true ∧ encode i = [b0, b1]

/-- R84: the table has 24 rows; a word decodes to an instruction of mnemonic m exactly when it matches the row of m,
and then it matches no other row. -/
def Obligations.DecoderAgreesWithTheOpcodeTable : Prop :=
  opcodeTable.length = 24 ∧ ∀ b0 b1 : Byte,
    (∀ i, decode b0 b1 = .ok i → ∃ r ∈ opcodeTable, r.selects (b0 ++ b1) ∧ r.mnemonic = i.mnemonic ∧
      ∀ r' ∈ opcodeTable, r'.selects (b0 ++ b1) → r' = r) ∧
    (∀ r ∈ opcodeTable, r.selects (b0 ++ b1) → ∃ i, decode b0 b1 = .ok i ∧ i.mnemonic = r.mnemonic)

/-- R87's list of the unknown words, family by family (its counts are not stated here). -/
def Obligations.UnknownWordsAreThoseListed : Prop :=
  ∀ (b0 b1 : Byte) (f : Fields), f = fieldsOf b0 b1 →
    (decode b0 b1 = .error (.unknownInstruction b0 b1) ↔
      (f.opcat = 0x0 ∧ f.nnn ≠ 0x0E0 ∧ f.nnn ≠ 0x0EE) ∨ (f.opcat = 0x5 ∧ f.n ≠ 0) ∨
      (f.opcat = 0x8 ∧ f.n ∈ [0x8#4, 0x9#4, 0xA#4, 0xB#4, 0xC#4, 0xD#4, 0xF#4]) ∨ (f.opcat = 0x9 ∧ f.n ≠ 0) ∨
      f.opcat = 0xB ∨ f.opcat = 0xC ∨ f.opcat = 0xE ∨
      (f.opcat = 0xF ∧ f.nn ≠ 0x33 ∧ f.nn ≠ 0x55 ∧ f.nn ≠ 0x65))

/-! ### The instruction cycle (40_instruction_cycle.md) -/

/-- With both bytes in memory the step advances pc by 2 and then runs the instruction the bytes decode to, or, when no
row matches, the unknown instruction (40_instruction_cycle.md section 2). The third clause, that a fault undoes the
whole step with its advance, is the spec's decision D2 (log 9). -/
def Obligations.StepAdvancesThenRunsTheDecodedInstruction : Prop :=
  ∀ s : State, s.fetchable →
    (∀ i, decode s.b0 s.b1 = .ok i → step s = exec i (s.setPc (s.pc + 2))) ∧
    (∀ r, decode s.b0 s.b1 = .error r → step s = execUnknown s.b0 s.b1 (s.setPc (s.pc + 2))) ∧
    (∀ f, step s = .fault f → (Block.loaded s).afterStep = .loaded s)

/-- An instruction word placed where the step fetches is the one the next step runs (the host's placing of a word,
log 6). -/
def Obligations.PlacedWordIsRunNext : Prop :=
  ∀ (s : State) (w : Nat) (i : Instr), s.fetchable → decodeTableWord 16 w = some i →
    step (s.withFetchWord 16 w) = exec i ((s.withFetchWord 16 w).setPc (s.pc + 2))

/-- A fetch with pc >= 0xFFF faults; the reported address is the lowest one out of range (the spec's decision D2). -/
def Obligations.FetchPastTheTopFaults : Prop :=
  ∀ s : State, 0xFFF ≤ s.pc.toNat → step s = .fault (.boundsViolation .fetch (max s.pc.toNat 4096))

/-- R106: an unknown word is logged with its two bytes and skipped; nothing else changes. -/
def Obligations.UnknownInstructionIsLoggedAndSkipped : Prop :=
  ∀ (s : State) (r : Reject), s.fetchable → decode s.b0 s.b1 = .error r →
    ∃ t, step s = .next t ∧ t.log = s.log ++ [.unknownInstruction s.b0 s.b1] ∧ t.pc = s.pc + 2 ∧
      t.stack = s.stack ∧ onlyControl s t

/-- A step of a loaded program is never refused: every word of every program has a meaning (60_exceptions.md
section 7: "Every instruction may be executed at any time"). -/
def Obligations.StepNeverRefuses : Prop := ∀ (s : State) (r : Refusal), step s ≠ .refused r

/-- Where pc goes in a completed step (the table of 10_state.md section 5; pc modulo 2^16 is D11, odd pc D19). -/
def Obligations.PcMovesAsTabled : Prop :=
  ∀ s t : State, step s = .next t →
    match decode s.b0 s.b1 with
    | .ok (.jp nnn) | .ok (.call nnn) => t.pc.toNat = nnn.toNat
    | .ok .ret => t.pc = s.stack.getLast?.getD (s.pc + 2)
    | .ok (.seImm x nn) => t.pc = if s.getV x = nn then s.pc + 4 else s.pc + 2
    | .ok (.sneImm x nn) => t.pc = if s.getV x = nn then s.pc + 2 else s.pc + 4
    | .ok (.seReg x y) => t.pc = if s.getV x = s.getV y then s.pc + 4 else s.pc + 2
    | .ok (.sneReg x y) => t.pc = if s.getV x = s.getV y then s.pc + 2 else s.pc + 4
    | _ => t.pc = s.pc + 2

/-- A completed step appends at most one diagnostic, exactly when the word is unknown or is 00EE on an empty stack
(95_test_vectors.md Part 4), and never changes the parameters (the fields `log` and `cfg` are the model's: log 1, 5). -/
def Obligations.StepEmitsAtMostOneDiagnostic : Prop :=
  ∀ s t : State, step s = .next t → t.cfg = s.cfg ∧
    t.log = s.log ++
      (match decode s.b0 s.b1 with
       | .error _ => [Diagnostic.unknownInstruction s.b0 s.b1]
       | .ok .ret => if s.stack = [] then [.emptyReturn] else []
       | .ok _ => [])

/-! ### Faults (60_exceptions.md) -/

/-- The causes of a fault, exhaustively and with its payload (payload D2, cap D4, whole range D15 and D16). -/
def Obligations.FaultsHaveExactlyTheListedCauses : Prop :=
  ∀ (s : State) (f : Fault), step s = .fault f ↔
    (¬s.fetchable ∧ f = .boundsViolation .fetch (max s.pc.toNat 4096)) ∨
    (s.fetchable ∧ ∃ i, decode s.b0 s.b1 = .ok i ∧ ¬inBounds s.i.toNat (dataLen i) ∧
      f = .boundsViolation .data (max s.i.toNat 4096)) ∨
    (s.fetchable ∧ ∃ nnn, decode s.b0 s.b1 = .ok (.call nnn) ∧ s.cfg.stackCap = some s.stack.length ∧
      f = .stackOverflow)

/-- A faulting step leaves the block as it was, and the next step raises the same fault (D2, D3). -/
def Obligations.FaultedStepChangesNothingAndRepeats : Prop :=
  ∀ (s : State) (f : Fault), step s = .fault f →
    (Block.loaded s).afterStep = .loaded s ∧ (Block.loaded s).afterStep.step = .fault f

/-- A data range past 4095 faults before any byte moves (D2, D15, D16). -/
def Obligations.OutOfRangeTransferFaults : Prop :=
  ∀ (i : Instr) (s : State), ¬inBounds s.i.toNat (dataLen i) →
    exec i s = .fault (.boundsViolation .data (max s.i.toNat 4096))

/-- Every instruction whose range is in bounds, and which is no CALL on a full stack, completes. -/
def Obligations.InstructionsInBoundsComplete : Prop :=
  ∀ (i : Instr) (s : State), inBounds s.i.toNat (dataLen i) →
    ((∃ nnn, i = .call nnn) → s.cfg.stackCap ≠ some s.stack.length) → ∃ t, exec i s = .next t

/-- In a run, a data fault always reports address 4096, and I is within 15 of the top (20_memory.md section 4,
43_index_memory.md R174, both derived there). That a data fault reports an address, and that it is the lowest one
out of range, is the spec's decision D2 (log 9). -/
def Obligations.ReachableDataFaultsReport4096 : Prop :=
  ∀ (s : State) (a : Nat), Reachable s → step s = .fault (.boundsViolation .data a) →
    a = 4096 ∧ 4096 ≤ s.i.toNat + 15

/-! ### Control flow (41_control_flow.md) -/

/-- R120, R226: RET pops the top into pc; on an empty stack it emits the warning and leaves pc as already advanced. -/
def Obligations.ReturnPopsOrWarns : Prop :=
  (∀ (s : State) (rest : List Word) (w : Word), s.stack = rest ++ [w] →
    ∃ t, exec .ret s = .next t ∧ t.pc = w ∧ t.stack = rest ∧ t.log = s.log ∧ onlyControl s t) ∧
  (∀ s : State, s.stack = [] →
    ∃ t, exec .ret s = .next t ∧ t.pc = s.pc ∧ t.stack = [] ∧ t.log = s.log ++ [.emptyReturn] ∧ onlyControl s t) ∧
  Diagnostic.text .emptyReturn = "Warning: attempted to return while stack is empty."

/-- R121: JP sets pc to NNN and changes nothing else; a jump to itself leaves the whole state as it was. -/
def Obligations.JumpSetsPc : Prop :=
  (∀ (nnn : Addr) (s : State),
    ∃ t, exec (.jp nnn) s = .next t ∧ t.pc.toNat = nnn.toNat ∧ t.stack = s.stack ∧ t.log = s.log ∧ onlyControl s t) ∧
  (∀ s : State, s.idle → step s = .next s)

/-- CALL pushes the post-advance pc and jumps; at the cap it faults (the cap's fault is D4). -/
def Obligations.CallPushesAndJumps : Prop :=
  ∀ (nnn : Addr) (s : State),
    (s.cfg.stackCap ≠ some s.stack.length →
      ∃ t, exec (.call nnn) s = .next t ∧ t.stack = s.stack ++ [s.pc] ∧ t.pc.toNat = nnn.toNat ∧ t.log = s.log ∧
        onlyControl s t) ∧
    (s.cfg.stackCap = some s.stack.length → exec (.call nnn) s = .fault .stackOverflow)

/-- A call whose target holds 00EE comes back: after the two steps pc is p + 2 and everything else is as before. -/
def Obligations.CallThenReturnComesBack : Prop :=
  ∀ (s : State) (nnn : Addr), s.fetchable → decode s.b0 s.b1 = .ok (.call nnn) →
    s.cfg.stackCap ≠ some s.stack.length → nnn.toNat + 1 < 4096 →
    decode (s.memByte nnn.toNat) (s.memByte (nnn.toNat + 1)) = .ok .ret →
    ∃ t u, step s = .next t ∧ step t = .next u ∧ u.pc = s.pc + 2 ∧ u.stack = s.stack ∧ u.log = s.log ∧
      onlyControl s u

/-- R123 to R126: a skip adds 2 to the post-advance pc when its own condition holds, and writes nothing else. -/
def Obligations.SkipsAddTwoOnTheirCondition : Prop :=
  ∀ (x y : Reg) (nn : Byte) (s : State),
    (∃ t, exec (.seImm x nn) s = .next t ∧ t.pc = (if s.getV x = nn then s.pc + 2 else s.pc) ∧
      t.stack = s.stack ∧ t.log = s.log ∧ onlyControl s t) ∧
    (∃ t, exec (.sneImm x nn) s = .next t ∧ t.pc = (if s.getV x ≠ nn then s.pc + 2 else s.pc) ∧
      t.stack = s.stack ∧ t.log = s.log ∧ onlyControl s t) ∧
    (∃ t, exec (.seReg x y) s = .next t ∧ t.pc = (if s.getV x = s.getV y then s.pc + 2 else s.pc) ∧
      t.stack = s.stack ∧ t.log = s.log ∧ onlyControl s t) ∧
    (∃ t, exec (.sneReg x y) s = .next t ∧ t.pc = (if s.getV x ≠ s.getV y then s.pc + 2 else s.pc) ∧
      t.stack = s.stack ∧ t.log = s.log ∧ onlyControl s t)

/-- R127: in a whole step, pc advances by 4 when the skip's condition holds, by 2 otherwise; whatever stands at the
skipped address, the step completes. -/
def Obligations.SkipStepsGoByFourOrTwo : Prop :=
  ∀ s : State, s.fetchable → ∀ (x y : Reg) (nn : Byte),
    (decode s.b0 s.b1 = .ok (.seImm x nn) →
      ∃ t, step s = .next t ∧ t.pc = if s.getV x = nn then s.pc + 4 else s.pc + 2) ∧
    (decode s.b0 s.b1 = .ok (.sneImm x nn) →
      ∃ t, step s = .next t ∧ t.pc = if s.getV x ≠ nn then s.pc + 4 else s.pc + 2) ∧
    (decode s.b0 s.b1 = .ok (.seReg x y) →
      ∃ t, step s = .next t ∧ t.pc = if s.getV x = s.getV y then s.pc + 4 else s.pc + 2) ∧
    (decode s.b0 s.b1 = .ok (.sneReg x y) →
      ∃ t, step s = .next t ∧ t.pc = if s.getV x ≠ s.getV y then s.pc + 4 else s.pc + 2)

/-- R30: only CALL pushes (one entry) and only RET pops (one entry, if there is one); RET on an empty stack leaves it
empty and emits a diagnostic; no other instruction, known or unknown, touches the stack. -/
def Obligations.OnlyCallAndReturnTouchTheStack : Prop :=
  ∀ s t : State,
    (∀ nnn, exec (.call nnn) s = .next t → t.stack = s.stack ++ [s.pc]) ∧
    (exec .ret s = .next t → t.stack = s.stack.dropLast ∧ (s.stack = [] → t.log = s.log ++ [.emptyReturn])) ∧
    (∀ i, i ≠ .ret → (∀ nnn, i ≠ .call nnn) → exec i s = .next t →
      t.stack = s.stack ∧ ∀ st : List Word, exec i { s with stack := st } = .next { t with stack := st }) ∧
    (∀ b0 b1, execUnknown b0 b1 s = .next t → t.stack = s.stack)

/-! ### Register file and ALU (10_state.md, 42_register_alu.md) -/

/-- The table of R21 bounds both ways: an instruction changes no register outside its `writes` column, and the registers
outside its `reads` column influence nothing: another register file that agrees on those read gives the same outcome, the same written
registers and the same rest of the state. The unknown instruction reads and writes none. (The order of an
instruction's own writes shows only with X = F, in the statements of those instructions.) -/
def Obligations.RegistersAreReadAndWrittenAsTabled : Prop :=
  (∀ (i : Instr) (s : State) (w : Vector Byte 16), (∀ j, regsRead i j = true → w.get j = s.v.get j) →
    (∀ f, exec i s = .fault f → exec i { s with v := w } = .fault f) ∧
    (∀ t, exec i s = .next t → sameRegsBut (regsWritten i) s t ∧
      ∃ t', exec i { s with v := w } = .next t' ∧ (∀ j, regsWritten i j = true → t'.getV j = t.getV j) ∧
        { t' with v := t.v } = t)) ∧
  (∀ (b0 b1 : Byte) (s t : State) (w : Vector Byte 16), execUnknown b0 b1 s = .next t →
    t.v = s.v ∧ execUnknown b0 b1 { s with v := w } = .next { t with v := w })

/-- R140, R141, R142: load immediate, add immediate modulo 256 with no carry recorded, copy; every other register (VF
unless it is the destination) is as before. -/
def Obligations.LoadAddImmediateAndCopy : Prop :=
  ∀ (x y : Reg) (nn : Byte) (s : State),
    (∃ t, exec (.ldImm x nn) s = .next t ∧ t.getV x = nn ∧ onlyRegs (· == x) s t) ∧
    (∃ t, exec (.addImm x nn) s = .next t ∧ (t.getV x).toNat = ((s.getV x).toNat + nn.toNat) % 256 ∧
      onlyRegs (· == x) s t) ∧
    (∃ t, exec (.ldReg x y) s = .next t ∧ t.getV x = s.getV y ∧ onlyRegs (· == x) s t)

/-- OR, AND, XOR bit by bit; VF is not written unless it is the destination (the spec's decision D20). -/
def Obligations.LogicIsBitwiseAndLeavesTheFlag : Prop :=
  ∀ (x y : Reg) (s : State),
    (∃ t, exec (.orReg x y) s = .next t ∧ onlyRegs (· == x) s t ∧
      ∀ k, (t.getV x).getLsbD k = ((s.getV x).getLsbD k || (s.getV y).getLsbD k)) ∧
    (∃ t, exec (.andReg x y) s = .next t ∧ onlyRegs (· == x) s t ∧
      ∀ k, (t.getV x).getLsbD k = ((s.getV x).getLsbD k && (s.getV y).getLsbD k)) ∧
    (∃ t, exec (.xorReg x y) s = .next t ∧ onlyRegs (· == x) s t ∧
      ∀ k, (t.getV x).getLsbD k = ((s.getV x).getLsbD k != (s.getV y).getLsbD k))

/-- ADD_REG: the sum modulo 256 and the carry, of the old values; with x = F the carry is what remains (D6, D21). -/
def Obligations.AddRegisterWithCarry : Prop :=
  ∀ (x y : Reg) (s : State), ∃ t, exec (.addReg x y) s = .next t ∧
    (t.getV vf).toNat = (if (s.getV x).toNat + (s.getV y).toNat > 255 then 1 else 0) ∧
    (x ≠ vf → (t.getV x).toNat = ((s.getV x).toNat + (s.getV y).toNat) % 256) ∧
    onlyRegs (fun j => j == x || j == vf) s t

/-- SUB and SUBN: the difference modulo 256 and the no-borrow flag (1 at equality: derived), of the old values; with
x = F the flag is what remains (D6, D21). -/
def Obligations.SubtractWithNoBorrow : Prop :=
  ∀ (x y : Reg) (s : State),
    (∃ t, exec (.sub x y) s = .next t ∧
      (t.getV vf).toNat = (if (s.getV x).toNat ≥ (s.getV y).toNat then 1 else 0) ∧
      (x ≠ vf → (t.getV x).toNat = ((s.getV x).toNat + 256 - (s.getV y).toNat) % 256) ∧
      onlyRegs (fun j => j == x || j == vf) s t) ∧
    (∃ t, exec (.subn x y) s = .next t ∧
      (t.getV vf).toNat = (if (s.getV y).toNat ≥ (s.getV x).toNat then 1 else 0) ∧
      (x ≠ vf → (t.getV x).toNat = ((s.getV y).toNat + 256 - (s.getV x).toNat) % 256) ∧
      onlyRegs (fun j => j == x || j == vf) s t)

/-- SHR shifts V[y], old V[x] unused: half of it, and its low bit in VF; 8FY6 always leaves VF = 0 (D6, D21). -/
def Obligations.ShiftRightOfTheCopy : Prop :=
  ∀ (x y : Reg) (s : State), ∃ t, exec (.shr x y) s = .next t ∧
    (x ≠ vf → (t.getV x).toNat = (s.getV y).toNat / 2 ∧ (t.getV vf).toNat = (s.getV y).toNat % 2) ∧
    (x = vf → t.getV vf = 0) ∧ onlyRegs (fun j => j == x || j == vf) s t

/-- SHL shifts V[y]: twice it modulo 256, and in VF the top-bit test, `>= 0x80`, or `> 0x80` under SHL_FLAG_GT (D5);
8FYE leaves twice the flag (D6, D21). -/
def Obligations.ShiftLeftOfTheCopy : Prop :=
  ∀ (x y : Reg) (s : State), ∃ t flag, exec (.shl x y) s = .next t ∧
    flag = (if (if s.cfg.shlFlagGt then (s.getV y).toNat > 0x80 else (s.getV y).toNat ≥ 0x80) then 1 else 0) ∧
    (x ≠ vf → (t.getV x).toNat = (s.getV y).toNat * 2 % 256 ∧ (t.getV vf).toNat = flag) ∧
    (x = vf → (t.getV vf).toNat = 2 * flag) ∧ onlyRegs (fun j => j == x || j == vf) s t

/-- SHL_FLAG_GT matters only when the shifted value is exactly 0x80 (90_conflicts.md C2). -/
def Obligations.ShlParameterMattersOnlyAt80 : Prop :=
  ∀ (x y : Reg) (s t : State) (g : Bool), s.getV y ≠ 0x80 → exec (.shl x y) s = .next t →
    exec (.shl x y) { s with cfg := { s.cfg with shlFlagGt := g } } =
      .next { t with cfg := { s.cfg with shlFlagGt := g } }

/-! ### Index register and memory (20_memory.md, 43_index_memory.md) -/

/-- LD_I sets I to NNN and changes nothing else, and it is the only instruction that writes I. That FX55 and FX65 leave
I is the spec's decision D20 (log 16). -/
def Obligations.LoadIndexIsTheOnlyWriterOfI : Prop :=
  (∀ (nnn : Addr) (s : State), ∃ t, exec (.ldI nnn) s = .next t ∧ t.i.toNat = nnn.toNat ∧ sameRegs s t ∧ sameMem s t ∧
    t.pc = s.pc ∧ t.stack = s.stack ∧ t.fb = s.fb ∧ t.log = s.log ∧ t.cfg = s.cfg) ∧
  (∀ (i : Instr) (s t : State), (∀ nnn, i ≠ .ldI nnn) → exec i s = .next t → t.i = s.i) ∧
  (∀ (b0 b1 : Byte) (s t : State), execUnknown b0 b1 s = .next t → t.i = s.i)

/-- BCD stores the hundreds, tens and units digits at I, I + 1, I + 2 and changes nothing else. In bounds; out of
bounds it stops as `OutOfRangeTransferFaults` says (D16). -/
def Obligations.BcdStoresThreeDigits : Prop :=
  ∀ (x : Reg) (s : State), s.i.toNat + 2 < 4096 → ∃ t, exec (.bcd x) s = .next t ∧
    (t.memByte s.i.toNat).toNat = (s.getV x).toNat / 100 ∧
    (t.memByte (s.i.toNat + 1)).toNat = (s.getV x).toNat / 10 % 10 ∧
    (t.memByte (s.i.toNat + 2)).toNat = (s.getV x).toNat % 10 ∧
    sameMemOutside s.i.toNat 3 s t ∧ sameRegs s t ∧ t.i = s.i ∧ t.pc = s.pc ∧ t.stack = s.stack ∧ t.fb = s.fb ∧
    t.log = s.log ∧ t.cfg = s.cfg

/-- STM stores V[0] to V[x] at I to I + x and changes nothing else, I included (D20). In bounds (D16). -/
def Obligations.StoreRegistersAtIndex : Prop :=
  ∀ (x : Reg) (s : State), s.i.toNat + x.val < 4096 → ∃ t, exec (.stm x) s = .next t ∧
    (∀ j : Reg, j ≤ x → t.memByte (s.i.toNat + j.val) = s.getV j) ∧
    sameMemOutside s.i.toNat (x.val + 1) s t ∧ sameRegs s t ∧ t.i = s.i ∧ t.pc = s.pc ∧ t.stack = s.stack ∧
    t.fb = s.fb ∧ t.log = s.log ∧ t.cfg = s.cfg

/-- LDM loads V[0] to V[x] from I to I + x and changes nothing else, I included (D20). In bounds (D16). -/
def Obligations.LoadRegistersFromIndex : Prop :=
  ∀ (x : Reg) (s : State), s.i.toNat + x.val < 4096 → ∃ t, exec (.ldm x) s = .next t ∧
    (∀ j : Reg, j ≤ x → t.getV j = s.memByte (s.i.toNat + j.val)) ∧ onlyRegs (fun j => decide (j ≤ x)) s t

/-- FX55, then FX65 with the same I and X and no write to memory between, restores V[0] to V[x], whatever was done to
the registers in between. -/
def Obligations.StoreThenLoadRestoresRegisters : Prop :=
  ∀ (x : Reg) (s t u : State), exec (.stm x) s = .next t → u.mem = t.mem → u.cfg = t.cfg → u.i = s.i →
    ∃ w, exec (.ldm x) u = .next w ∧ ∀ j : Reg, j ≤ x → w.getV j = s.getV j

/-- Only BCD and STM write memory (95_test_vectors.md Part 4). -/
def Obligations.OnlyBcdAndStmWriteMemory : Prop :=
  ∀ s t : State, step s = .next t → (∀ x, decode s.b0 s.b1 ≠ .ok (.bcd x)) → (∀ x, decode s.b0 s.b1 ≠ .ok (.stm x)) →
    sameMem s t

/-- Only DRW and LDM read memory as data: under any other memory every other instruction does the same to registers,
I, pc, stack, framebuffer and log (the table of 20_memory.md section 5; a skip does not look at what it skips). -/
def Obligations.OnlyDrwAndLdmReadMemory : Prop :=
  ∀ (i : Instr) (s t : State) (m : Memory), (∀ x y n, i ≠ .drw x y n) → (∀ x, i ≠ .ldm x) → exec i s = .next t →
    ∃ t', exec i { s with mem := m } = .next t' ∧ { t' with mem := t.mem } = t

/-- A store is seen by the very next fetch: when STM stores V[k], V[k+1] where pc stands, the next step runs what those
two bytes decode to (20_memory.md section 6, derived there). -/
def Obligations.StoredInstructionIsFetchedNext : Prop :=
  ∀ (x : Reg) (k : Nat) (s t : State) (h : k + 1 ≤ x.val) (i : Instr), exec (.stm x) s = .next t →
    s.pc.toNat = s.i.toNat + k →
    decode (s.getV ⟨k, by omega⟩) (s.getV ⟨k + 1, by omega⟩) = .ok i → step t = exec i (t.setPc (s.pc + 2))

/-- Two memories in canonical form that read alike at every address are the same list. -/
def Obligations.EqualReadsAreEqualMemories : Prop :=
  ∀ (c : Config) (m m' : Memory), Memory.wf c m → Memory.wf c m' →
    (∀ a, Memory.read c m a = Memory.read c m' a) → m = m'

/-! ### Display (44_display.md) -/

/-- R190: CLS clears every row, whatever it held, and changes nothing else. -/
def Obligations.ClearZeroesEveryRow : Prop :=
  ∀ s : State, ∃ t, exec .cls s = .next t ∧ (∀ r, t.fb.get r = 0) ∧ sameRegs s t ∧ sameMem s t ∧ t.i = s.i ∧
    t.pc = s.pc ∧ t.stack = s.stack ∧ t.log = s.log ∧ t.cfg = s.cfg

/-- R193: the mask of a sprite byte at column cx has, at bit 63 - c, the sprite's bit 7 - (c - cx) when c is one of the
eight columns from cx, and 0 at every other column. -/
def Obligations.RowMaskPlacesAndClipsPixels : Prop :=
  ∀ (b : Byte) (cx : Nat) (c : Fin 64), cx < 64 →
    (rowMask b cx).getLsbD (63 - c.val) =
      (decide (cx ≤ c.val ∧ c.val < cx + 8) && b.getLsbD (7 - (c.val - cx)))

/-- Row k of the sprite is XORed into row cy + k if that is below 32 and skipped otherwise; the
collision flag, false at the start, ends true exactly when some drawn row had a lit pixel under its mask, which is when
some lit pixel is turned off; the same sprite again restores the rows; DRW writes the flag to VF as 1 or 0. The DRW
clause rests on the spec's decisions D15 (all n bytes in range; n = 0 completes and writes VF = 0; log 13) and D21
(position from the old registers; log 15). -/
def Obligations.SpriteRowsAreXoredAndCollisionIsSticky : Prop :=
  (∀ (rows : Vector Row 32) (cx cy : Nat) (bytes : List Byte),
    (∀ r : Fin 32, (drawSprite rows cx cy bytes).rows.get r =
      if h : cy ≤ r.val ∧ r.val - cy < bytes.length then rows.get r ^^^ rowMask (bytes[r.val - cy]'h.2) cx
      else rows.get r) ∧
    ((drawSprite rows cx cy bytes).collision = true ↔
      ∃ (r : Fin 32) (h : cy ≤ r.val ∧ r.val - cy < bytes.length),
        rows.get r &&& rowMask (bytes[r.val - cy]'h.2) cx ≠ 0) ∧
    ((drawSprite rows cx cy bytes).collision = true ↔
      ∃ r c, pixel rows r c = true ∧ pixel (drawSprite rows cx cy bytes).rows r c = false) ∧
    (drawSprite (drawSprite rows cx cy bytes).rows cx cy bytes).rows = rows) ∧
  (∀ (x y : Reg) (n : Nat) (s : State), inBounds s.i.toNat n →
    ∃ t d, exec (.drw x y n) s = .next t ∧
      d = drawSprite s.fb ((s.getV x).toNat % 64) ((s.getV y).toNat % 32) (s.readBytes s.i.toNat n) ∧
      t.fb = d.rows ∧ (t.getV vf).toNat = if d.collision then 1 else 0)

/-- DRW, pixel by pixel: it toggles exactly the lit sprite pixels on the screen, sets VF to 1 when one of them was lit
and to 0 otherwise (n = 0 included), and changes nothing else. In bounds, all n bytes (D15); positions from the old
registers (D21); every other register is left alone (D20, log 16); leftmost pixel = bit 7 (recovered,
91_not_in_source.md N4, log 18). -/
def Obligations.DrawTogglesTheSpritePixels : Prop :=
  ∀ (x y : Reg) (n : Nat) (s : State), inBounds s.i.toNat n → ∃ t, exec (.drw x y n) s = .next t ∧
    (∀ r c, pixel t.fb r c = (pixel s.fb r c != spritePixel s x y n r c)) ∧
    ((t.getV vf).toNat = 0 ∨ (t.getV vf).toNat = 1) ∧
    (t.getV vf = 1 ↔ ∃ r c, pixel s.fb r c = true ∧ pixel t.fb r c = false) ∧
    sameRegsBut (· == vf) s t ∧ sameMem s t ∧ t.i = s.i ∧ t.pc = s.pc ∧ t.stack = s.stack ∧ t.log = s.log ∧
    t.cfg = s.cfg

/-- Drawing the same sprite twice at the same place with nothing between restores the framebuffer; the second draw
collides exactly when the first turned a pixel on (44_display.md section 4, derived there). -/
def Obligations.DrawingTwiceRestoresTheFramebuffer : Prop :=
  ∀ (x y : Reg) (n : Nat) (s t : State), exec (.drw x y n) s = .next t →
    ∃ u, exec (.drw x y n) { s with fb := t.fb } = .next u ∧ u.fb = s.fb ∧
      (u.getV vf = 1 ↔ ∃ r c, pixel s.fb r c = false ∧ pixel t.fb r c = true)

/-- R32: only CLS and DRW write the framebuffer, and its contents reach the rest of the state only through DRW's
collision flag. -/
def Obligations.FramebufferWritersAndReaders : Prop :=
  (∀ (i : Instr) (s t : State), exec i s = .next t →
    (i ≠ .cls → (∀ x y n, i ≠ .drw x y n) → t.fb = s.fb) ∧
    ∀ fb : Vector Row 32, ∃ t', exec i { s with fb := fb } = .next t' ∧
      { t' with fb := t.fb, v := t.v } = t ∧ (∀ j, j ≠ vf → t'.getV j = t.getV j) ∧
      ((∀ x y n, i ≠ .drw x y n) → t'.getV vf = t.getV vf)) ∧
  (∀ (b0 b1 : Byte) (s t : State), execUnknown b0 b1 s = .next t → t.fb = s.fb)

/-- A step whose content-change output is false leaves the framebuffer as it was (the optional output of
40_instruction_cycle.md section 4, D1). -/
def Obligations.UntouchedFramebufferIsUnchanged : Prop :=
  ∀ s t : State, step s = .next t → framebufferTouched s = false → t.fb = s.fb

/-! ### Reset (10_state.md, 70_reset_and_hazards.md) -/

/-- What a successful load leaves: the table of 10_state.md section 12, for every rom and every parameters (the
framebuffer's zeros are D7; the font is the parameter, D8). -/
def Obligations.LoadMakesTheTabledState : Prop :=
  ∀ (c : Config) (log : List Diagnostic) (rom : List Byte) (s : State), rom.length ≤ 3584 → s = State.load c log rom →
    (∀ j, s.getV j = 0) ∧ s.i = 0 ∧ s.pc = 0x200 ∧ s.stack = [] ∧ (∀ r, s.fb.get r = 0) ∧
    (∀ (k : Nat) (h : k < 80), s.memByte (0x50 + k) = c.font[k]) ∧
    (∀ (k : Nat) (h : k < rom.length), s.memByte (0x200 + k) = rom[k]) ∧
    (∀ a, a < 4096 → ¬(0x50 ≤ a ∧ a < 0xA0) → ¬(0x200 ≤ a ∧ a < 0x200 + rom.length) → s.memByte a = 0)

/-- State.reset is the state after a load of the empty rom with the default parameters (log 6), and so a state of
runs. -/
def Obligations.ResetIsALoadOfTheEmptyRom : Prop :=
  State.reset = State.load Config.default [] [] ∧ Reachable State.reset

/-- R261: a rom longer than 3584 bytes is refused with "ROM size too big" and leaves the block as it was, or empty;
3584 is accepted. -/
def Obligations.OversizedRomLeavesTheBlockUntouched : Prop :=
  ∀ (b : Block) (rom : List Byte),
    (rom.length > 3584 → b.load rom = (b, .failed .sizeExceeded)) ∧
    (rom.length ≤ 3584 → ∃ a, b.load rom = (.loaded (State.load b.cfg b.log rom), .loaded a)) ∧
    LoadMessage.text .sizeExceeded = "ROM size too big"

/-- R263: an odd-length rom is accepted, with one advisory that changes no state; an even one has no advisory. -/
def Obligations.OddRomIsAcceptedWithAnAdvisory : Prop :=
  ∀ (b : Block) (rom : List Byte), rom.length ≤ 3584 →
    (rom.length % 2 = 1 →
      b.load rom = (.loaded (State.load b.cfg b.log rom), .loaded (some .oddLength))) ∧
    (rom.length % 2 = 0 → b.load rom = (.loaded (State.load b.cfg b.log rom), .loaded none))

/-- A load leaves nothing of the earlier state, a fault included: blocks with the same parameters and the same host log
(which are no state of the block) load to the same block (D18). -/
def Obligations.LoadReplacesEverything : Prop :=
  ∀ (b b' : Block) (rom : List Byte), b.cfg = b'.cfg → b.log = b'.log → rom.length ≤ 3584 → b.load rom = b'.load rom

/-- Before a successful load there is no state and a step is refused (D13). -/
def Obligations.StepBeforeLoadIsRefused : Prop :=
  ∀ (c : Config) (rom : List Byte),
    (Block.empty c).step = .refused .noProgramLoaded ∧
    (rom.length > 3584 → ((Block.empty c).load rom).1.step = .refused .noProgramLoaded)

/-! ### Invariants of runs -/

/-- The invariant holds after every successful load, of any rom and parameters, State.reset's among them. -/
def Obligations.LoadMeetsTheInvariant : Prop :=
  ∀ (c : Config) (log : List Diagnostic) (rom : List Byte), rom.length ≤ 3584 → (State.load c log rom).Inv

/-- State.reset meets the invariant. -/
def Obligations.ResetMeetsTheInvariant : Prop := State.reset.Inv

/-- From EVERY state that meets the invariant, a completed step gives a state that meets it: I <= 0xFFF, pc <= 0x1002,
return addresses 2 to 0x1000, the cap, and memory's canonical form. -/
def Obligations.StepKeepsTheInvariant : Prop := ∀ s t : State, s.Inv → step s = .next t → t.Inv

/-- Every state of every run meets the invariant, and a completed step fetched from pc <= 0xFFE (10_state.md
section 5, derived there). -/
def Obligations.ReachableStatesMeetTheInvariant : Prop :=
  ∀ s : State, Reachable s → s.Inv ∧ ∀ t, step s = .next t → s.pc.toNat ≤ 0x0FFE
end

