-- ==== Sys2Proof/Laws/Decode.lean ====
section
/-! SUPPORT. The fields of an encoded word, format by format (30_encoding.md R81, R82), and the decoder's two answers. -/

namespace Sys2Proof

@[simp] theorem regOf_regField (x : Reg) : regOf (regField x) = x := rfl

@[simp] theorem regField_regOf (f : BitVec 4) : regField (regOf f) = f := rfl

/-- Two bytes make a word and come back. -/
@[simp] theorem hiByte_append (b0 b1 : Byte) : hiByte (b0 ++ b1) = b0 := BitVec.extractLsb'_append_eq_left

@[simp] theorem loByte_append (b0 b1 : Byte) : loByte (b0 ++ b1) = b1 := BitVec.extractLsb'_append_eq_right

theorem hiByte_append_loByte (w : Word) : hiByte w ++ loByte w = w := by
  apply BitVec.eq_of_getLsbD_eq; intro i hi; simp [hiByte, loByte]; grind

theorem fieldsOf_wordNNN (op : BitVec 4) (nnn : Addr) :
    fieldsOf (hiByte (wordNNN op nnn)) (loByte (wordNNN op nnn)) =
      ⟨op, nnn.extractLsb' 8 4, nnn.extractLsb' 4 4, nnn.extractLsb' 0 4, nnn.extractLsb' 0 8, nnn⟩ := by
  simp only [fieldsOf, Fields.mk.injEq, hiByte, loByte, wordNNN]
  refine ⟨?_, ?_, ?_, ?_, ?_, ?_⟩ <;> (apply BitVec.eq_of_getLsbD_eq; intro i hi; simp; try grind)

theorem fieldsOf_wordXNN (op : BitVec 4) (x : Reg) (nn : Byte) :
    fieldsOf (hiByte (wordXNN op x nn)) (loByte (wordXNN op x nn)) =
      ⟨op, regField x, nn.extractLsb' 4 4, nn.extractLsb' 0 4, nn, regField x ++ nn⟩ := by
  simp only [fieldsOf, Fields.mk.injEq, hiByte, loByte, wordXNN]
  refine ⟨?_, ?_, ?_, ?_, ?_, ?_⟩ <;> (apply BitVec.eq_of_getLsbD_eq; intro i hi; simp; try grind)

theorem fieldsOf_wordXYN (op : BitVec 4) (x y : Reg) (n : BitVec 4) :
    fieldsOf (hiByte (wordXYN op x y n)) (loByte (wordXYN op x y n)) =
      ⟨op, regField x, regField y, n, regField y ++ n, regField x ++ (regField y ++ n)⟩ := by
  simp only [fieldsOf, Fields.mk.injEq, hiByte, loByte, wordXYN]
  refine ⟨?_, ?_, ?_, ?_, ?_, ?_⟩ <;> (apply BitVec.eq_of_getLsbD_eq; intro i hi; simp; try grind)

/-- The decoder answers an instruction exactly when dispatch does. -/
theorem decode_eq_ok {b0 b1 : Byte} {i : Instr} : decode b0 b1 = .ok i ↔ dispatch (fieldsOf b0 b1) = some i := by
  unfold decode; cases dispatch (fieldsOf b0 b1) <;> simp

/-- What it rejects it rejects as the unknown instruction of those two bytes. -/
theorem decode_eq_error {b0 b1 : Byte} {r : Reject} :
    decode b0 b1 = .error r ↔ dispatch (fieldsOf b0 b1) = none ∧ r = .unknownInstruction b0 b1 := by
  unfold decode; cases dispatch (fieldsOf b0 b1) <;> simp [eq_comm]

end Sys2Proof
end

