-- ==== Sys2Proof/Laws/State.lean ====
section
/-! SUPPORT. What each update leaves in each field of State, what the readers then read, all by `rfl`; and the register
file's read after write. -/

namespace Sys2Proof.Machine

/-! ### The fixed numbers of 00_scope.md R7, for arithmetic -/

@[simp] theorem memSize_eq : memSize = 4096 := rfl
@[simp] theorem progBase_eq : progBase = 512 := rfl
@[simp] theorem fontBase_eq : fontBase = 80 := rfl
@[simp] theorem fontLen_eq : fontLen = 80 := rfl
@[simp] theorem maxRom_eq : maxRom = 3584 := rfl
@[simp] theorem fbRows_eq : fbRows = 32 := rfl
@[simp] theorem fbCols_eq : fbCols = 64 := rfl

variable (s : State)

/-! ### setV -/

@[simp] theorem State.setV_i (x : Reg) (b : Byte) : (s.setV x b).i = s.i := rfl
@[simp] theorem State.setV_pc (x : Reg) (b : Byte) : (s.setV x b).pc = s.pc := rfl
@[simp] theorem State.setV_stack (x : Reg) (b : Byte) : (s.setV x b).stack = s.stack := rfl
@[simp] theorem State.setV_fb (x : Reg) (b : Byte) : (s.setV x b).fb = s.fb := rfl
@[simp] theorem State.setV_mem (x : Reg) (b : Byte) : (s.setV x b).mem = s.mem := rfl
@[simp] theorem State.setV_log (x : Reg) (b : Byte) : (s.setV x b).log = s.log := rfl
@[simp] theorem State.setV_cfg (x : Reg) (b : Byte) : (s.setV x b).cfg = s.cfg := rfl
@[simp] theorem State.setV_memByte (x : Reg) (b : Byte) (c : Nat) : (s.setV x b).memByte c = s.memByte c := rfl

/-! ### setI -/

@[simp] theorem State.setI_v (w : Word) : (s.setI w).v = s.v := rfl
@[simp] theorem State.setI_i (w : Word) : (s.setI w).i = w := rfl
@[simp] theorem State.setI_pc (w : Word) : (s.setI w).pc = s.pc := rfl
@[simp] theorem State.setI_stack (w : Word) : (s.setI w).stack = s.stack := rfl
@[simp] theorem State.setI_fb (w : Word) : (s.setI w).fb = s.fb := rfl
@[simp] theorem State.setI_mem (w : Word) : (s.setI w).mem = s.mem := rfl
@[simp] theorem State.setI_log (w : Word) : (s.setI w).log = s.log := rfl
@[simp] theorem State.setI_cfg (w : Word) : (s.setI w).cfg = s.cfg := rfl
@[simp] theorem State.setI_getV (w : Word) (j : Reg) : (s.setI w).getV j = s.getV j := rfl
@[simp] theorem State.setI_memByte (w : Word) (c : Nat) : (s.setI w).memByte c = s.memByte c := rfl

/-! ### setPc -/

@[simp] theorem State.setPc_v (w : Word) : (s.setPc w).v = s.v := rfl
@[simp] theorem State.setPc_i (w : Word) : (s.setPc w).i = s.i := rfl
@[simp] theorem State.setPc_pc (w : Word) : (s.setPc w).pc = w := rfl
@[simp] theorem State.setPc_stack (w : Word) : (s.setPc w).stack = s.stack := rfl
@[simp] theorem State.setPc_fb (w : Word) : (s.setPc w).fb = s.fb := rfl
@[simp] theorem State.setPc_mem (w : Word) : (s.setPc w).mem = s.mem := rfl
@[simp] theorem State.setPc_log (w : Word) : (s.setPc w).log = s.log := rfl
@[simp] theorem State.setPc_cfg (w : Word) : (s.setPc w).cfg = s.cfg := rfl
@[simp] theorem State.setPc_getV (w : Word) (j : Reg) : (s.setPc w).getV j = s.getV j := rfl
@[simp] theorem State.setPc_memByte (w : Word) (c : Nat) : (s.setPc w).memByte c = s.memByte c := rfl

/-! ### push -/

@[simp] theorem State.push_v (w : Word) : (s.push w).v = s.v := rfl
@[simp] theorem State.push_i (w : Word) : (s.push w).i = s.i := rfl
@[simp] theorem State.push_pc (w : Word) : (s.push w).pc = s.pc := rfl
@[simp] theorem State.push_stack (w : Word) : (s.push w).stack = s.stack ++ [w] := rfl
@[simp] theorem State.push_fb (w : Word) : (s.push w).fb = s.fb := rfl
@[simp] theorem State.push_mem (w : Word) : (s.push w).mem = s.mem := rfl
@[simp] theorem State.push_log (w : Word) : (s.push w).log = s.log := rfl
@[simp] theorem State.push_cfg (w : Word) : (s.push w).cfg = s.cfg := rfl
@[simp] theorem State.push_getV (w : Word) (j : Reg) : (s.push w).getV j = s.getV j := rfl
@[simp] theorem State.push_memByte (w : Word) (c : Nat) : (s.push w).memByte c = s.memByte c := rfl

/-! ### dropTop -/

@[simp] theorem State.dropTop_v : (s.dropTop).v = s.v := rfl
@[simp] theorem State.dropTop_i : (s.dropTop).i = s.i := rfl
@[simp] theorem State.dropTop_pc : (s.dropTop).pc = s.pc := rfl
@[simp] theorem State.dropTop_stack : (s.dropTop).stack = s.stack.dropLast := rfl
@[simp] theorem State.dropTop_fb : (s.dropTop).fb = s.fb := rfl
@[simp] theorem State.dropTop_mem : (s.dropTop).mem = s.mem := rfl
@[simp] theorem State.dropTop_log : (s.dropTop).log = s.log := rfl
@[simp] theorem State.dropTop_cfg : (s.dropTop).cfg = s.cfg := rfl
@[simp] theorem State.dropTop_getV (j : Reg) : (s.dropTop).getV j = s.getV j := rfl
@[simp] theorem State.dropTop_memByte (c : Nat) : (s.dropTop).memByte c = s.memByte c := rfl

/-! ### emit -/

@[simp] theorem State.emit_v (d : Diagnostic) : (s.emit d).v = s.v := rfl
@[simp] theorem State.emit_i (d : Diagnostic) : (s.emit d).i = s.i := rfl
@[simp] theorem State.emit_pc (d : Diagnostic) : (s.emit d).pc = s.pc := rfl
@[simp] theorem State.emit_stack (d : Diagnostic) : (s.emit d).stack = s.stack := rfl
@[simp] theorem State.emit_fb (d : Diagnostic) : (s.emit d).fb = s.fb := rfl
@[simp] theorem State.emit_mem (d : Diagnostic) : (s.emit d).mem = s.mem := rfl
@[simp] theorem State.emit_log (d : Diagnostic) : (s.emit d).log = s.log ++ [d] := rfl
@[simp] theorem State.emit_cfg (d : Diagnostic) : (s.emit d).cfg = s.cfg := rfl
@[simp] theorem State.emit_getV (d : Diagnostic) (j : Reg) : (s.emit d).getV j = s.getV j := rfl
@[simp] theorem State.emit_memByte (d : Diagnostic) (c : Nat) : (s.emit d).memByte c = s.memByte c := rfl

/-! ### setByte -/

@[simp] theorem State.setByte_v (a : Nat) (b : Byte) : (s.setByte a b).v = s.v := rfl
@[simp] theorem State.setByte_i (a : Nat) (b : Byte) : (s.setByte a b).i = s.i := rfl
@[simp] theorem State.setByte_pc (a : Nat) (b : Byte) : (s.setByte a b).pc = s.pc := rfl
@[simp] theorem State.setByte_stack (a : Nat) (b : Byte) : (s.setByte a b).stack = s.stack := rfl
@[simp] theorem State.setByte_fb (a : Nat) (b : Byte) : (s.setByte a b).fb = s.fb := rfl
@[simp] theorem State.setByte_log (a : Nat) (b : Byte) : (s.setByte a b).log = s.log := rfl
@[simp] theorem State.setByte_cfg (a : Nat) (b : Byte) : (s.setByte a b).cfg = s.cfg := rfl
@[simp] theorem State.setByte_getV (a : Nat) (b : Byte) (j : Reg) : (s.setByte a b).getV j = s.getV j := rfl

/-! ### setFb -/

@[simp] theorem State.setFb_v (fb : Vector Row 32) : (s.setFb fb).v = s.v := rfl
@[simp] theorem State.setFb_i (fb : Vector Row 32) : (s.setFb fb).i = s.i := rfl
@[simp] theorem State.setFb_pc (fb : Vector Row 32) : (s.setFb fb).pc = s.pc := rfl
@[simp] theorem State.setFb_stack (fb : Vector Row 32) : (s.setFb fb).stack = s.stack := rfl
@[simp] theorem State.setFb_fb (fb : Vector Row 32) : (s.setFb fb).fb = fb := rfl
@[simp] theorem State.setFb_mem (fb : Vector Row 32) : (s.setFb fb).mem = s.mem := rfl
@[simp] theorem State.setFb_log (fb : Vector Row 32) : (s.setFb fb).log = s.log := rfl
@[simp] theorem State.setFb_cfg (fb : Vector Row 32) : (s.setFb fb).cfg = s.cfg := rfl
@[simp] theorem State.setFb_getV (fb : Vector Row 32) (j : Reg) : (s.setFb fb).getV j = s.getV j := rfl
@[simp] theorem State.setFb_memByte (fb : Vector Row 32) (c : Nat) : (s.setFb fb).memByte c = s.memByte c := rfl

/-! ### loadRegs -/

@[simp] theorem State.loadRegs_i (x : Reg) (a : Nat) : (s.loadRegs x a).i = s.i := rfl
@[simp] theorem State.loadRegs_pc (x : Reg) (a : Nat) : (s.loadRegs x a).pc = s.pc := rfl
@[simp] theorem State.loadRegs_stack (x : Reg) (a : Nat) : (s.loadRegs x a).stack = s.stack := rfl
@[simp] theorem State.loadRegs_fb (x : Reg) (a : Nat) : (s.loadRegs x a).fb = s.fb := rfl
@[simp] theorem State.loadRegs_mem (x : Reg) (a : Nat) : (s.loadRegs x a).mem = s.mem := rfl
@[simp] theorem State.loadRegs_log (x : Reg) (a : Nat) : (s.loadRegs x a).log = s.log := rfl
@[simp] theorem State.loadRegs_cfg (x : Reg) (a : Nat) : (s.loadRegs x a).cfg = s.cfg := rfl
@[simp] theorem State.loadRegs_memByte (x : Reg) (a : Nat) (c : Nat) : (s.loadRegs x a).memByte c = s.memByte c := rfl

/-! ### advance -/

@[simp] theorem State.advance_v : (s.advance).v = s.v := rfl
@[simp] theorem State.advance_i : (s.advance).i = s.i := rfl
@[simp] theorem State.advance_pc : (s.advance).pc = s.pc + 2 := rfl
@[simp] theorem State.advance_stack : (s.advance).stack = s.stack := rfl
@[simp] theorem State.advance_fb : (s.advance).fb = s.fb := rfl
@[simp] theorem State.advance_mem : (s.advance).mem = s.mem := rfl
@[simp] theorem State.advance_log : (s.advance).log = s.log := rfl
@[simp] theorem State.advance_cfg : (s.advance).cfg = s.cfg := rfl
@[simp] theorem State.advance_getV (j : Reg) : (s.advance).getV j = s.getV j := rfl
@[simp] theorem State.advance_memByte (c : Nat) : (s.advance).memByte c = s.memByte c := rfl

/-! ### The register file -/

/-- A register read after a register write (10_state.md R20). -/
@[simp] theorem State.getV_setV (x : Reg) (b : Byte) (j : Reg) :
    (s.setV x b).getV j = if j = x then b else s.getV j := by
  simp only [State.getV, State.setV, Vector.get_eq_getElem, Vector.getElem_set, Fin.ext_iff, eq_comm]

/-- LDM's registers: the loaded ones and the others (43_index_memory.md R173). -/
@[simp] theorem State.getV_loadRegs (x : Reg) (a : Nat) (j : Reg) :
    (s.loadRegs x a).getV j = if j ≤ x then s.memByte (a + j) else s.getV j := by
  simp [State.getV, State.loadRegs, Vector.get_eq_getElem]

/-- Two register files that read alike are the same. -/
theorem regs_ext {v w : Vector Byte 16} (h : ∀ j : Reg, v.get j = w.get j) : v = w := by
  refine Vector.ext fun k hk => ?_
  simpa [Vector.get_eq_getElem] using h ⟨k, hk⟩

/-! ### skipIf: a taken skip moves pc and nothing else -/

theorem State.skipIf_eq (c : Bool) : s.skipIf c = { s with pc := if c then s.pc + 2 else s.pc } := by cases c <;> rfl
@[simp] theorem State.skipIf_pc (c : Bool) : (s.skipIf c).pc = if c then s.pc + 2 else s.pc := by
  cases c <;> rfl
@[simp] theorem State.skipIf_v (c : Bool) : (s.skipIf c).v = s.v := by cases c <;> rfl
@[simp] theorem State.skipIf_i (c : Bool) : (s.skipIf c).i = s.i := by cases c <;> rfl
@[simp] theorem State.skipIf_stack (c : Bool) : (s.skipIf c).stack = s.stack := by cases c <;> rfl
@[simp] theorem State.skipIf_fb (c : Bool) : (s.skipIf c).fb = s.fb := by cases c <;> rfl
@[simp] theorem State.skipIf_mem (c : Bool) : (s.skipIf c).mem = s.mem := by cases c <;> rfl
@[simp] theorem State.skipIf_log (c : Bool) : (s.skipIf c).log = s.log := by cases c <;> rfl
@[simp] theorem State.skipIf_cfg (c : Bool) : (s.skipIf c).cfg = s.cfg := by cases c <;> rfl
@[simp] theorem State.skipIf_getV (c : Bool) (j : Reg) : (s.skipIf c).getV j = s.getV j := by cases c <;> rfl
@[simp] theorem State.skipIf_memByte (c : Bool) (a : Nat) : (s.skipIf c).memByte a = s.memByte a := by cases c <;> rfl

end Sys2Proof.Machine
end

