-- ==== Sys2Proof/Laws/Memory.lean ====
section
/-! SUPPORT. The memory: read after write, and every operation keeps the canonical form. -/

namespace Sys2Proof.Machine

/-! ### lookup after erase and insert -/

theorem Memory.lookup_erase (m : Memory) (a c : Nat) :
    Memory.lookup (Memory.erase m a) c = if c = a then none else Memory.lookup m c := by
  induction m with
  | nil => simp [Memory.erase, Memory.lookup]
  | cons e m ih =>
    obtain ⟨k, b⟩ := e
    simp only [Memory.erase, Memory.lookup]
    split
    · grind
    · simp only [Memory.lookup]; grind

theorem Memory.lookup_insert (m : Memory) (a : Nat) (b : Byte) (c : Nat) :
    Memory.lookup (Memory.insert m a b) c = if c = a then some b else Memory.lookup m c := by
  induction m with
  | nil => simp only [Memory.insert, Memory.lookup]; grind
  | cons e m ih =>
    obtain ⟨k, b'⟩ := e
    simp only [Memory.insert]
    split
    · simp only [Memory.lookup]; grind
    · split <;> (simp only [Memory.lookup]; grind)

/-- A byte read after a byte write: the byte written, and every other byte as before (20_memory.md R61). -/
theorem Memory.read_write (c : Config) (m : Memory) (a : Nat) (b : Byte) (k : Nat) :
    Memory.read c (Memory.write c m a b) k = if k = a then b else Memory.read c m k := by
  simp only [Memory.read, Memory.write]
  by_cases h : b = unlisted c a
  · rw [if_pos h, Memory.lookup_erase]; split <;> simp_all
  · rw [if_neg h, Memory.lookup_insert]; split <;> simp_all

/-! ### The canonical form -/

theorem Memory.mem_erase {m : Memory} {a : Nat} {e : Host.Cell} (h : e ∈ Memory.erase m a) : e ∈ m := by
  induction m with
  | nil => simp [Memory.erase] at h
  | cons x m ih => obtain ⟨k, b⟩ := x; simp only [Memory.erase] at h; grind

theorem Memory.mem_insert {m : Memory} {a : Nat} {b : Byte} {e : Host.Cell} (h : e ∈ Memory.insert m a b) :
    e = (a, b) ∨ e ∈ m := by
  induction m with
  | nil => simpa [Memory.insert] using h
  | cons x m ih => obtain ⟨k, b'⟩ := x; simp only [Memory.insert] at h; grind

theorem Memory.wf_nil (c : Config) : Memory.wf c [] := by simp [Memory.wf]

theorem Memory.wf_erase {c : Config} {m : Memory} (h : Memory.wf c m) (a : Nat) : Memory.wf c (Memory.erase m a) := by
  refine ⟨?_, fun e he => h.2 e (Memory.mem_erase he)⟩
  obtain ⟨h, -⟩ := h
  induction m with
  | nil => exact h
  | cons x m ih =>
    obtain ⟨k, b⟩ := x
    rw [List.pairwise_cons] at h
    simp only [Memory.erase]
    split
    · exact ih h.2
    · exact List.pairwise_cons.2 ⟨fun e he => h.1 e (Memory.mem_erase he), ih h.2⟩

theorem Memory.wf_insert {c : Config} {m : Memory} (h : Memory.wf c m) {a : Nat} {b : Byte} (ha : a < memSize)
    (hb : b ≠ unlisted c a) : Memory.wf c (Memory.insert m a b) := by
  refine ⟨?_, fun e he => (Memory.mem_insert he).elim (fun h' => h' ▸ ⟨ha, hb⟩) (h.2 e)⟩
  obtain ⟨h, -⟩ := h
  induction m with
  | nil => simp [Memory.insert]
  | cons x m ih =>
    obtain ⟨k, b'⟩ := x
    have hc := List.pairwise_cons.1 h
    simp only [Memory.insert]
    split
    · next hlt =>
      refine List.pairwise_cons.2 ⟨fun e he => ?_, h⟩
      rcases List.mem_cons.1 he with rfl | he
      · exact hlt
      · exact Nat.lt_trans hlt (hc.1 e he)
    · split
      · next hk => subst hk; exact List.pairwise_cons.2 ⟨hc.1, hc.2⟩
      · refine List.pairwise_cons.2 ⟨fun e he => ?_, ih hc.2⟩
        rcases Memory.mem_insert he with rfl | he
        · simp only; omega
        · exact hc.1 e he

/-- A write inside the address space keeps the canonical form. -/
theorem Memory.wf_write {c : Config} {m : Memory} (h : Memory.wf c m) {a : Nat} (ha : a < memSize) (b : Byte) :
    Memory.wf c (Memory.write c m a b) := by
  unfold Memory.write
  split
  · exact Memory.wf_erase h a
  · exact Memory.wf_insert h ha ‹_›

theorem State.reset_mem_wf : Memory.wf State.reset.cfg State.reset.mem := Memory.wf_nil _

/-! ### setByte, writeBytes, readBytes -/

@[simp] theorem State.memByte_setByte (s : State) (a : Nat) (b : Byte) (k : Nat) :
    (s.setByte a b).memByte k = if k = a then b else s.memByte k :=
  Memory.read_write s.cfg s.mem a b k

/-- `writeBytes` is a change of memory alone. -/
theorem State.writeBytes_fields (s : State) (base : Nat) (bs : List Byte) :
    (s.writeBytes base bs).v = s.v ∧ (s.writeBytes base bs).i = s.i ∧ (s.writeBytes base bs).pc = s.pc ∧
      (s.writeBytes base bs).stack = s.stack ∧ (s.writeBytes base bs).fb = s.fb ∧
      (s.writeBytes base bs).log = s.log ∧ (s.writeBytes base bs).cfg = s.cfg := by
  induction bs generalizing s base with
  | nil => simp [State.writeBytes]
  | cons b bs ih => simpa [State.writeBytes] using ih (s.setByte base b) (base + 1)

@[simp] theorem State.writeBytes_v (s : State) (base : Nat) (bs : List Byte) : (s.writeBytes base bs).v = s.v :=
  (s.writeBytes_fields base bs).1
@[simp] theorem State.writeBytes_i (s : State) (base : Nat) (bs : List Byte) : (s.writeBytes base bs).i = s.i :=
  (s.writeBytes_fields base bs).2.1
@[simp] theorem State.writeBytes_pc (s : State) (base : Nat) (bs : List Byte) : (s.writeBytes base bs).pc = s.pc :=
  (s.writeBytes_fields base bs).2.2.1
@[simp] theorem State.writeBytes_stack (s : State) (base : Nat) (bs : List Byte) :
    (s.writeBytes base bs).stack = s.stack := (s.writeBytes_fields base bs).2.2.2.1
@[simp] theorem State.writeBytes_fb (s : State) (base : Nat) (bs : List Byte) : (s.writeBytes base bs).fb = s.fb :=
  (s.writeBytes_fields base bs).2.2.2.2.1
@[simp] theorem State.writeBytes_log (s : State) (base : Nat) (bs : List Byte) : (s.writeBytes base bs).log = s.log :=
  (s.writeBytes_fields base bs).2.2.2.2.2.1
@[simp] theorem State.writeBytes_cfg (s : State) (base : Nat) (bs : List Byte) : (s.writeBytes base bs).cfg = s.cfg :=
  (s.writeBytes_fields base bs).2.2.2.2.2.2
@[simp] theorem State.writeBytes_getV (s : State) (base : Nat) (bs : List Byte) (j : Reg) :
    (s.writeBytes base bs).getV j = s.getV j := by simp [State.getV]

/-- `writeBytes` as one update of the memory field. -/
theorem State.writeBytes_eq (s : State) (base : Nat) (bs : List Byte) :
    s.writeBytes base bs = { s with mem := (s.writeBytes base bs).mem } := by
  obtain ⟨h1, h2, h3, h4, h5, h6, h7⟩ := s.writeBytes_fields base bs
  cases hs : s.writeBytes base bs; simp_all

/-- The memory `writeBytes` leaves depends on memory and FONT alone. -/
theorem State.writeBytes_mem_congr {s t : State} (hm : t.mem = s.mem) (hc : t.cfg = s.cfg) (base : Nat)
    (bs : List Byte) : (t.writeBytes base bs).mem = (s.writeBytes base bs).mem := by
  induction bs generalizing s t base with
  | nil => exact hm
  | cons b bs ih => exact ih (by simp [State.setByte, hm, hc]) (by simp [hc]) _

/-- `writeBytes` on a state with the memory and FONT of another: the other's memory, its own rest. -/
theorem State.writeBytes_congr {s t : State} (hm : t.mem = s.mem) (hc : t.cfg = s.cfg) (base : Nat) (bs : List Byte) :
    t.writeBytes base bs = { t with mem := (s.writeBytes base bs).mem } := by
  rw [State.writeBytes_eq, State.writeBytes_mem_congr hm hc]

/-- Every byte after `writeBytes`: the stored one inside the range, the old one outside. -/
theorem State.memByte_writeBytes (s : State) (base : Nat) (bs : List Byte) (k : Nat) :
    (s.writeBytes base bs).memByte k =
      if h : base ≤ k ∧ k < base + bs.length then bs[k - base]'(by omega) else s.memByte k := by
  induction bs generalizing s base with
  | nil => simp [State.writeBytes]
  | cons b bs ih =>
    simp only [State.writeBytes, ih, State.memByte_setByte, List.length_cons]
    by_cases hk : k = base
    · subst hk; simp
    · by_cases h : base + 1 ≤ k ∧ k < base + 1 + bs.length
      · rw [dif_pos h, dif_pos (by omega)]
        obtain ⟨d, rfl⟩ : ∃ d, k = base + 1 + d := ⟨k - (base + 1), by omega⟩
        simp [show base + 1 + d - base = d + 1 by omega]
      · rw [dif_neg h, dif_neg (by omega), if_neg hk]

theorem State.writeBytes_wf {s : State} (h : Memory.wf s.cfg s.mem) {base : Nat} {bs : List Byte}
    (hb : base + bs.length ≤ memSize) : Memory.wf s.cfg (s.writeBytes base bs).mem := by
  induction bs generalizing s base with
  | nil => exact h
  | cons b bs ih =>
    simp only [List.length_cons] at hb
    exact ih (s := s.setByte base b) (Memory.wf_write h (by omega) b) (by omega)

@[simp] theorem State.length_readBytes (s : State) (base n : Nat) : (s.readBytes base n).length = n := by
  induction n generalizing base with
  | zero => rfl
  | succ n ih => simp [State.readBytes, ih]

@[simp] theorem State.getElem_readBytes (s : State) (base n k : Nat) (h : k < (s.readBytes base n).length) :
    (s.readBytes base n)[k] = s.memByte (base + k) := by
  induction n generalizing base k with
  | zero => simp at h
  | succ n ih =>
    cases k with
    | zero => simp [State.readBytes]
    | succ k => simp [State.readBytes, ih, Nat.add_assoc, Nat.add_comm 1 k]

/-- Reading depends on memory and FONT alone. -/
theorem State.readBytes_congr {s t : State} (hm : t.mem = s.mem) (hc : t.cfg = s.cfg) (base n : Nat) :
    t.readBytes base n = s.readBytes base n := by
  induction n generalizing base with
  | zero => rfl
  | succ n ih => simp [State.readBytes, ih, State.memByte, hm, hc]

/-- The block STM stores. -/
theorem State.length_regsUpTo (s : State) (x : Reg) : (s.regsUpTo x).length = x.val + 1 := by
  simp only [State.regsUpTo, List.length_take, Vector.length_toList]; omega

theorem State.getElem_regsUpTo (s : State) (x : Reg) (k : Nat) (h : k < (s.regsUpTo x).length) :
    (s.regsUpTo x)[k] = s.getV ⟨k, by rw [State.length_regsUpTo] at h; omega⟩ := by
  simp [State.regsUpTo, State.getV, Vector.get_eq_getElem]

end Sys2Proof.Machine
end

