-- ==== Sys2Proof/Laws/Step.lean ====
section
/-! SUPPORT. What the shared operations and the step can do, said once. -/

namespace Sys2Proof.Machine

/-- The range check passes exactly on a range inside the address space. -/
theorem withRange_of_inBounds {base len : Nat} (h : inBounds base len) (r : Result) : withRange base len r = r := by
  rw [withRange, if_neg]; simp only [inBounds, memSize_eq] at *; omega

/-- Outside it, the data fault with the lowest address out of bounds (43_index_memory.md R174). -/
theorem withRange_of_not_inBounds {base len : Nat} (h : ¬inBounds base len) (r : Result) :
    withRange base len r = .fault (.boundsViolation .data (max base 4096)) := by
  rw [withRange, if_pos]
  · rfl
  · simp only [inBounds, memSize_eq] at *; omega

/-- If a range-checked instruction completes, its range was in bounds. -/
theorem withRange_eq_next {base len : Nat} {r : Result} {t : State} (h : withRange base len r = .next t) :
    inBounds base len ∧ r = .next t := by
  by_cases hb : inBounds base len
  · exact ⟨hb, by rwa [withRange_of_inBounds hb] at h⟩
  · rw [withRange_of_not_inBounds hb] at h; cases h

theorem fetch_of_fetchable {s : State} (h : s.fetchable) : s.fetch = .ok (s.b0, s.b1) := by
  simp only [State.fetchable] at h
  rw [State.fetch, memSize_eq, if_neg (by omega), if_neg (by omega)]

theorem fetch_of_not_fetchable {s : State} (h : ¬s.fetchable) :
    s.fetch = .error (.boundsViolation .fetch (max s.pc.toNat 4096)) := by
  simp only [State.fetchable] at h
  simp only [State.fetch, memSize_eq]
  split
  · congr 2; omega
  · rw [if_pos (by omega)]; congr 2; omega

/-- A step that completes fetched two bytes and ran the instruction they decode to, or the unknown one. -/
theorem step_eq_next {s t : State} (h : step s = .next t) :
    s.fetchable ∧ ((∃ i, decode s.b0 s.b1 = .ok i ∧ exec i s.advance = .next t) ∨
      (∃ r, decode s.b0 s.b1 = .error r ∧ t = s.advance.emit (.unknownInstruction s.b0 s.b1))) := by
  by_cases hf : s.fetchable
  · refine ⟨hf, ?_⟩
    simp only [step, fetch_of_fetchable hf] at h
    cases hd : decode s.b0 s.b1 with
    | ok i => exact .inl ⟨i, rfl, by simpa [hd] using h⟩
    | error r =>
      refine .inr ⟨r, rfl, ?_⟩
      simp only [hd, execUnknown, Host.Outcome.next.injEq] at h
      exact h.symm
  · simp [step, fetch_of_not_fetchable hf, raise] at h

/-! ### The register and draw operations -/

@[simp] theorem State.getV_resultThenFlag (s : State) (x : Reg) (r f : Byte) (j : Reg) :
    (s.resultThenFlag x r f).getV j = if j = vf then f else if j = x then r else s.getV j := by
  simp [State.resultThenFlag]

/-- With x not F: the shifted copy and its flag; with x = F: the flag, shifted (42_register_alu.md R148, R150). -/
theorem State.getV_copyFlagShift (s : State) (x y : Reg) (flag shift : Byte → Byte) (j : Reg) :
    (s.copyFlagShift x y flag shift).getV j =
      if j = x then (if x = vf then shift (flag (s.getV y)) else shift (s.getV y))
      else if j = vf then flag (s.getV y) else s.getV j := by
  simp only [State.copyFlagShift, State.getV_setV]; grind

/-- The register writers change no other field. -/
theorem State.copyFlagShift_eq (s : State) (x y : Reg) (flag shift : Byte → Byte) :
    s.copyFlagShift x y flag shift = { s with v := (s.copyFlagShift x y flag shift).v } := rfl

theorem State.resultThenFlag_eq (s : State) (x : Reg) (r f : Byte) :
    s.resultThenFlag x r f = { s with v := (s.resultThenFlag x r f).v } := rfl

/-- A row on the screen: the XOR and the detector; a row below it: nothing (44_display.md R194). -/
theorem DrawState.drawRow_of_lt (d : DrawState) (cx : Nat) (b : Byte) {r : Nat} (h : r < 32) :
    d.drawRow cx r b = { rows := d.rows.set r (d.rows[r] ^^^ rowMask b cx)
                         collision := d.collision || collides d.rows[r] (rowMask b cx) } := by
  simp [DrawState.drawRow, h]

theorem DrawState.drawRow_of_ge (d : DrawState) (cx : Nat) (b : Byte) {r : Nat} (h : 32 ≤ r) : d.drawRow cx r b = d := by
  simp [DrawState.drawRow, Nat.not_lt.2 h]

end Sys2Proof.Machine
end

