-- ==== Sys2Proof/Laws/Exec.lean ====
section
/-! SUPPORT. What each instruction can do, said once: when exec answers a next state, and which. Proofs over all
instructions use `cases i` and these, without unfolding a meaning. -/

namespace Sys2Proof.Machine

/-- The state DRW leaves when its sprite is in bounds. -/
abbrev State.drawn (s : State) (x y : Reg) (n : Nat) : State :=
  (s.setFb (drawSprite s.fb (s.spriteCol x) (s.spriteRow y) (s.readBytes s.i.toNat n)).rows).setV vf
    (flagOf (drawSprite s.fb (s.spriteCol x) (s.spriteRow y) (s.readBytes s.i.toNat n)).collision)

/-- A range-checked instruction completes exactly when its range is in bounds. -/
theorem withRange_next_iff {base len : Nat} {u t : State} :
    withRange base len (.next u) = .next t ↔ inBounds base len ∧ t = u := by
  constructor
  · intro h
    obtain ⟨hb, h⟩ := withRange_eq_next h
    exact ⟨hb, (Host.Outcome.next.inj h).symm⟩
  · rintro ⟨hb, rfl⟩; exact withRange_of_inBounds hb _

variable (s t : State)

/-! ### Instructions that always complete -/

theorem exec_jp_next (nnn : Addr) :
    exec (.jp nnn) s = .next t ↔ t = s.setPc (zext16 nnn) := by
  simp only [exec, execJp, Host.Outcome.next.injEq, eq_comm]

theorem exec_seImm_next (x : Reg) (nn : Byte) :
    exec (.seImm x nn) s = .next t ↔ t = s.skipIf (s.getV x == nn) := by
  simp only [exec, execSeImm, Host.Outcome.next.injEq, eq_comm]

theorem exec_sneImm_next (x : Reg) (nn : Byte) :
    exec (.sneImm x nn) s = .next t ↔ t = s.skipIf (s.getV x != nn) := by
  simp only [exec, execSneImm, Host.Outcome.next.injEq, eq_comm]

theorem exec_seReg_next (x y : Reg) :
    exec (.seReg x y) s = .next t ↔ t = s.skipIf (s.getV x == s.getV y) := by
  simp only [exec, execSeReg, Host.Outcome.next.injEq, eq_comm]

theorem exec_sneReg_next (x y : Reg) :
    exec (.sneReg x y) s = .next t ↔ t = s.skipIf (s.getV x != s.getV y) := by
  simp only [exec, execSneReg, Host.Outcome.next.injEq, eq_comm]

theorem exec_ldImm_next (x : Reg) (nn : Byte) :
    exec (.ldImm x nn) s = .next t ↔ t = s.setV x nn := by
  simp only [exec, execLdImm, Host.Outcome.next.injEq, eq_comm]

theorem exec_addImm_next (x : Reg) (nn : Byte) :
    exec (.addImm x nn) s = .next t ↔ t = s.setV x (s.getV x + nn) := by
  simp only [exec, execAddImm, Host.Outcome.next.injEq, eq_comm]

theorem exec_ldReg_next (x y : Reg) :
    exec (.ldReg x y) s = .next t ↔ t = s.setV x (s.getV y) := by
  simp only [exec, execLdReg, Host.Outcome.next.injEq, eq_comm]

theorem exec_orReg_next (x y : Reg) :
    exec (.orReg x y) s = .next t ↔ t = s.setV x (s.getV x ||| s.getV y) := by
  simp only [exec, execOrReg, Host.Outcome.next.injEq, eq_comm]

theorem exec_andReg_next (x y : Reg) :
    exec (.andReg x y) s = .next t ↔ t = s.setV x (s.getV x &&& s.getV y) := by
  simp only [exec, execAndReg, Host.Outcome.next.injEq, eq_comm]

theorem exec_xorReg_next (x y : Reg) :
    exec (.xorReg x y) s = .next t ↔ t = s.setV x (s.getV x ^^^ s.getV y) := by
  simp only [exec, execXorReg, Host.Outcome.next.injEq, eq_comm]

theorem exec_addReg_next (x y : Reg) :
    exec (.addReg x y) s = .next t ↔ t = s.resultThenFlag x (s.getV x + s.getV y) (carryFlag (s.getV x) (s.getV y)) := by
  simp only [exec, execAddReg, Host.Outcome.next.injEq, eq_comm]

theorem exec_sub_next (x y : Reg) :
    exec (.sub x y) s = .next t ↔ t = s.resultThenFlag x (s.getV x - s.getV y) (noBorrowFlag (s.getV x) (s.getV y)) := by
  simp only [exec, execSub, Host.Outcome.next.injEq, eq_comm]

theorem exec_subn_next (x y : Reg) :
    exec (.subn x y) s = .next t ↔ t = s.resultThenFlag x (s.getV y - s.getV x) (noBorrowFlag (s.getV y) (s.getV x)) := by
  simp only [exec, execSubn, Host.Outcome.next.injEq, eq_comm]

theorem exec_shr_next (x y : Reg) :
    exec (.shr x y) s = .next t ↔ t = s.copyFlagShift x y shrFlag (· >>> 1) := by
  simp only [exec, execShr, Host.Outcome.next.injEq, eq_comm]

theorem exec_shl_next (x y : Reg) :
    exec (.shl x y) s = .next t ↔ t = s.copyFlagShift x y (shlFlag s.cfg.shlFlagGt) (· <<< 1) := by
  simp only [exec, execShl, Host.Outcome.next.injEq, eq_comm]

theorem exec_ldI_next (nnn : Addr) :
    exec (.ldI nnn) s = .next t ↔ t = s.setI (zext16 nnn) := by
  simp only [exec, execLdI, Host.Outcome.next.injEq, eq_comm]

theorem exec_cls_next :
    exec .cls s = .next t ↔ t = s.setFb (Vector.replicate 32 0) := by
  simp only [exec, execCls, Host.Outcome.next.injEq, eq_comm]

/-! ### RET and CALL -/

theorem exec_ret_next :
    exec .ret s = .next t ↔
      (s.stack = [] ∧ t = s.emit .emptyReturn) ∨ (∃ w, s.stack.getLast? = some w ∧ t = s.dropTop.setPc w) := by
  simp only [exec, execRet]
  split <;> rename_i h
  · rw [List.getLast?_eq_none_iff] at h
    simp [h, eq_comm]
  · have : s.stack ≠ [] := fun hn => by simp [hn] at h
    simp [h, this, eq_comm]

theorem exec_call_next (nnn : Addr) :
    exec (.call nnn) s = .next t ↔
      s.cfg.stackCap ≠ some s.stack.length ∧ t = (s.push s.pc).setPc (zext16 nnn) := by
  by_cases h : s.cfg.stackCap = some s.stack.length
  · simp [exec, execCall, State.stackFull, h, raise]
  · simp only [exec, execCall, State.stackFull, beq_iff_eq, h, if_false, Host.Outcome.next.injEq, ne_eq, not_false_eq_true,
      true_and]
    exact eq_comm

/-! ### Instructions with a data range -/

theorem exec_bcd_next (x : Reg) :
    exec (.bcd x) s = .next t ↔ inBounds s.i.toNat 3 ∧ t = s.writeBytes s.i.toNat (digits (s.getV x)) :=
  withRange_next_iff

theorem exec_stm_next (x : Reg) :
    exec (.stm x) s = .next t ↔ inBounds s.i.toNat (x.val + 1) ∧ t = s.writeBytes s.i.toNat (s.regsUpTo x) :=
  withRange_next_iff

theorem exec_ldm_next (x : Reg) :
    exec (.ldm x) s = .next t ↔ inBounds s.i.toNat (x.val + 1) ∧ t = s.loadRegs x s.i.toNat :=
  withRange_next_iff

theorem exec_drw_next (x y : Reg) (n : Nat) :
    exec (.drw x y n) s = .next t ↔ inBounds s.i.toNat n ∧ t = s.drawn x y n :=
  withRange_next_iff

/-- The address JP, CALL and LD_I load, as a number (30_encoding.md R83). -/
@[simp] theorem toNat_zext16 (nnn : Addr) : (zext16 nnn).toNat = nnn.toNat := by simp [zext16]; omega

/-- No meaning refuses. -/
theorem exec_ne_refused (i : Instr) (r : Refusal) : exec i s ≠ .refused r := by
  cases i <;>
    simp only [exec, execCls, execRet, execJp, execCall, execSeImm, execSneImm, execSeReg, execSneReg, execLdImm,
      execAddImm, execLdReg, execOrReg, execAndReg, execXorReg, execAddReg, execSub, execShr, execSubn, execShl,
      execLdI, execDrw, execBcd, execStm, execLdm, raise, withRange] <;>
    (try split) <;> simp

end Sys2Proof.Machine
end

