-- ==== Sys2Proof/Laws/PerInstr.lean ====
section
/-! SUPPORT. Facts about every instruction as syntax, one lemma per constructor. -/

namespace Sys2Proof.Laws.RowSelected

/-- A well-formed instruction's word selects the row of its own mnemonic (30_encoding.md R84). -/
def Statement (i : Instr) : Prop :=
  i.wellFormed = true → ∃ r ∈ opcodeTable, r.mnemonic = i.mnemonic ∧ r.selects (encodeWord i)

/-! ### Each mask keeps its format's fixed bits and drops the operands -/

theorem mask_NNN (op : BitVec 4) (nnn : Addr) : wordNNN op nnn &&& 0xF000 = op ++ 0#12 := by
  unfold wordNNN
  apply BitVec.eq_of_getLsbD_eq; intro i hi
  simp only [BitVec.getLsbD_and, BitVec.getLsbD_append]
  interval_cases i <;> simp

theorem mask_XNN (op : BitVec 4) (x : Reg) (nn : Byte) : wordXNN op x nn &&& 0xF000 = op ++ 0#12 := by
  unfold wordXNN
  apply BitVec.eq_of_getLsbD_eq; intro i hi
  simp only [BitVec.getLsbD_and, BitVec.getLsbD_append]
  interval_cases i <;> simp

theorem mask_XKK (op : BitVec 4) (x : Reg) (nn : Byte) : wordXNN op x nn &&& 0xF0FF = op ++ 0#4 ++ nn := by
  unfold wordXNN
  apply BitVec.eq_of_getLsbD_eq; intro i hi
  simp only [BitVec.getLsbD_and, BitVec.getLsbD_append]
  interval_cases i <;> simp

theorem mask_XY (op : BitVec 4) (x y : Reg) (n : BitVec 4) : wordXYN op x y n &&& 0xF00F = op ++ 0#8 ++ n := by
  unfold wordXYN
  apply BitVec.eq_of_getLsbD_eq; intro i hi
  simp only [BitVec.getLsbD_and, BitVec.getLsbD_append]
  interval_cases i <;> simp

theorem mask_XYN (op : BitVec 4) (x y : Reg) (n : BitVec 4) : wordXYN op x y n &&& 0xF000 = op ++ 0#12 := by
  unfold wordXYN
  apply BitVec.eq_of_getLsbD_eq; intro i hi
  simp only [BitVec.getLsbD_and, BitVec.getLsbD_append]
  interval_cases i <;> simp

/-! ### One lemma per constructor -/

theorem cls : Statement .cls :=
  fun _ => ⟨⟨"CLS", 0xFFFF, 0x00E0⟩, by decide, rfl, by decide⟩

theorem ret : Statement .ret :=
  fun _ => ⟨⟨"RET", 0xFFFF, 0x00EE⟩, by decide, rfl, by decide⟩

theorem jp (nnn : Addr) : Statement (.jp nnn) :=
  fun _ => ⟨⟨"JP", 0xF000, 0x1000⟩, by decide, rfl, (mask_NNN _ _).trans (by decide)⟩

theorem call (nnn : Addr) : Statement (.call nnn) :=
  fun _ => ⟨⟨"CALL", 0xF000, 0x2000⟩, by decide, rfl, (mask_NNN _ _).trans (by decide)⟩

theorem seImm (x : Reg) (nn : Byte) : Statement (.seImm x nn) :=
  fun _ => ⟨⟨"SE_IMM", 0xF000, 0x3000⟩, by decide, rfl, (mask_XNN _ _ _).trans (by decide)⟩

theorem sneImm (x : Reg) (nn : Byte) : Statement (.sneImm x nn) :=
  fun _ => ⟨⟨"SNE_IMM", 0xF000, 0x4000⟩, by decide, rfl, (mask_XNN _ _ _).trans (by decide)⟩

theorem seReg (x y : Reg) : Statement (.seReg x y) :=
  fun _ => ⟨⟨"SE_REG", 0xF00F, 0x5000⟩, by decide, rfl, (mask_XY _ _ _ _).trans (by decide)⟩

theorem sneReg (x y : Reg) : Statement (.sneReg x y) :=
  fun _ => ⟨⟨"SNE_REG", 0xF00F, 0x9000⟩, by decide, rfl, (mask_XY _ _ _ _).trans (by decide)⟩

theorem ldImm (x : Reg) (nn : Byte) : Statement (.ldImm x nn) :=
  fun _ => ⟨⟨"LD_IMM", 0xF000, 0x6000⟩, by decide, rfl, (mask_XNN _ _ _).trans (by decide)⟩

theorem addImm (x : Reg) (nn : Byte) : Statement (.addImm x nn) :=
  fun _ => ⟨⟨"ADD_IMM", 0xF000, 0x7000⟩, by decide, rfl, (mask_XNN _ _ _).trans (by decide)⟩

theorem ldReg (x y : Reg) : Statement (.ldReg x y) :=
  fun _ => ⟨⟨"LD_REG", 0xF00F, 0x8000⟩, by decide, rfl, (mask_XY _ _ _ _).trans (by decide)⟩

theorem orReg (x y : Reg) : Statement (.orReg x y) :=
  fun _ => ⟨⟨"OR", 0xF00F, 0x8001⟩, by decide, rfl, (mask_XY _ _ _ _).trans (by decide)⟩

theorem andReg (x y : Reg) : Statement (.andReg x y) :=
  fun _ => ⟨⟨"AND", 0xF00F, 0x8002⟩, by decide, rfl, (mask_XY _ _ _ _).trans (by decide)⟩

theorem xorReg (x y : Reg) : Statement (.xorReg x y) :=
  fun _ => ⟨⟨"XOR", 0xF00F, 0x8003⟩, by decide, rfl, (mask_XY _ _ _ _).trans (by decide)⟩

theorem addReg (x y : Reg) : Statement (.addReg x y) :=
  fun _ => ⟨⟨"ADD_REG", 0xF00F, 0x8004⟩, by decide, rfl, (mask_XY _ _ _ _).trans (by decide)⟩

theorem sub (x y : Reg) : Statement (.sub x y) :=
  fun _ => ⟨⟨"SUB", 0xF00F, 0x8005⟩, by decide, rfl, (mask_XY _ _ _ _).trans (by decide)⟩

theorem shr (x y : Reg) : Statement (.shr x y) :=
  fun _ => ⟨⟨"SHR", 0xF00F, 0x8006⟩, by decide, rfl, (mask_XY _ _ _ _).trans (by decide)⟩

theorem subn (x y : Reg) : Statement (.subn x y) :=
  fun _ => ⟨⟨"SUBN", 0xF00F, 0x8007⟩, by decide, rfl, (mask_XY _ _ _ _).trans (by decide)⟩

theorem shl (x y : Reg) : Statement (.shl x y) :=
  fun _ => ⟨⟨"SHL", 0xF00F, 0x800E⟩, by decide, rfl, (mask_XY _ _ _ _).trans (by decide)⟩

theorem ldI (nnn : Addr) : Statement (.ldI nnn) :=
  fun _ => ⟨⟨"LD_I", 0xF000, 0xA000⟩, by decide, rfl, (mask_NNN _ _).trans (by decide)⟩

theorem drw (x y : Reg) (n : Nat) : Statement (.drw x y n) :=
  fun _ => ⟨⟨"DRW", 0xF000, 0xD000⟩, by decide, rfl, (mask_XYN _ _ _ _).trans (by decide)⟩

theorem bcd (x : Reg) : Statement (.bcd x) :=
  fun _ => ⟨⟨"BCD", 0xF0FF, 0xF033⟩, by decide, rfl, (mask_XKK _ _ _).trans (by decide)⟩

theorem stm (x : Reg) : Statement (.stm x) :=
  fun _ => ⟨⟨"STM", 0xF0FF, 0xF055⟩, by decide, rfl, (mask_XKK _ _ _).trans (by decide)⟩

theorem ldm (x : Reg) : Statement (.ldm x) :=
  fun _ => ⟨⟨"LDM", 0xF0FF, 0xF065⟩, by decide, rfl, (mask_XKK _ _ _).trans (by decide)⟩

end Sys2Proof.Laws.RowSelected
end

