-- ==== Sys2Proof/Machine/Assembly.lean ====
section
/-! DEFINITION. The spec's own assembly spelling of an instruction (30_encoding.md R90; D9, log 22). Nothing depends on
it. -/

namespace Sys2Proof.Machine

/-- `V0` to `VF`. -/
def regName (x : Reg) : String := "V" ++ String.ofList [hexDigit x.val]

/-- A byte as a number, `0x` and two digits. -/
def byteText (b : Byte) : String := "0x" ++ hexByte b

/-- An address as a number, `0x` and three digits. -/
def addrText (a : Addr) : String :=
  "0x" ++ String.ofList [hexDigit (a.toNat / 256), hexDigit (a.toNat / 16 % 16), hexDigit (a.toNat % 16)]

/-- An assembler word and its operands. -/
def asmLine (word : String) (operands : List String) : String := word ++ " " ++ ", ".intercalate operands

/-- The syntax column of R90. -/
def asmText : Instr → String
  | .cls => "CLS"
  | .ret => "RET"
  | .jp nnn => asmLine "JP" [addrText nnn]
  | .call nnn => asmLine "CALL" [addrText nnn]
  | .seImm x nn => asmLine "SE" [regName x, byteText nn]
  | .sneImm x nn => asmLine "SNE" [regName x, byteText nn]
  | .seReg x y => asmLine "SE" [regName x, regName y]
  | .sneReg x y => asmLine "SNE" [regName x, regName y]
  | .ldImm x nn => asmLine "LD" [regName x, byteText nn]
  | .addImm x nn => asmLine "ADD" [regName x, byteText nn]
  | .ldReg x y => asmLine "LD" [regName x, regName y]
  | .orReg x y => asmLine "OR" [regName x, regName y]
  | .andReg x y => asmLine "AND" [regName x, regName y]
  | .xorReg x y => asmLine "XOR" [regName x, regName y]
  | .addReg x y => asmLine "ADD" [regName x, regName y]
  | .sub x y => asmLine "SUB" [regName x, regName y]
  | .shr x y => asmLine "SHR" [regName x, regName y]
  | .subn x y => asmLine "SUBN" [regName x, regName y]
  | .shl x y => asmLine "SHL" [regName x, regName y]
  | .ldI nnn => asmLine "LD" ["I", addrText nnn]
  | .drw x y n => asmLine "DRW" [regName x, regName y, Nat.repr n]
  | .bcd x => asmLine "BCD" [regName x]
  | .stm x => asmLine "STM" [regName x]
  | .ldm x => asmLine "LDM" [regName x]

end Sys2Proof.Machine
end

