-- ==== Sys2Proof/Tests/Slice0.lean ====
section
/-! SUPPORT. The model's own tests. Words are written out from the formats and patterns of 30_encoding.md R82 and R84;
expected results are those of 95_test_vectors.md, cited by their ids. Then a witness for every statement that has
hypotheses. -/

namespace Sys2Proof.Tests.Slice0

open Sys2Proof Sys2Proof.Machine

/-! ### Helpers -/

/-- What holds of a step that completed. -/
def okOf : Result → Option State
  | .next t => some t
  | .fault _ => none
  | .refused _ => none

/-- The fault of a step that faulted. -/
def faultOf : Result → Option Fault
  | .next _ => none
  | .fault f => some f
  | .refused _ => none

/-- After load, with changes, and a word where the next step fetches (the convention of 95_test_vectors.md). -/
def setup (w : Nat) (f : State → State) : State := (f State.reset).withFetchWord 16 w

/-- One step from `setup`, seen through `get`. -/
def after {α : Type} (w : Nat) (f : State → State) (get : State → α) : Option α :=
  (okOf (step (setup w f))).map get

/-- One step from `setup` that faults. -/
def faults (w : Nat) (f : State → State) : Option Fault := faultOf (step (setup w f))

theorem next_of_okOf {r : Result} (h : (okOf r).isSome = true) : ∃ t, r = .next t := by
  cases r <;> simp_all [okOf]

theorem fault_of_faultOf {r : Result} {f : Fault} (h : faultOf r = some f) : r = .fault f := by
  cases r <;> simp_all [faultOf]

/-! ### WellFormed refuses what is no instruction -/

theorem test_wellFormed_refuses_drw_16 : (Instr.drw 0 0 16).wellFormed = false := by decide
theorem test_wellFormed_takes_drw_15 : (Instr.drw 0 0 15).wellFormed = true := by decide

/-! ### Decoding, one word for every constructor, bit by bit -/

theorem test_decode_cls : decode 0b0000_0000 0b1110_0000 = .ok .cls ∧ encode .cls = [0x00, 0xE0] := by decide
theorem test_decode_ret : decode 0b0000_0000 0b1110_1110 = .ok .ret ∧ encode .ret = [0x00, 0xEE] := by decide
theorem test_decode_jp : decode 0b0001_1010 0b1011_1100 = .ok (.jp 0xABC) ∧ encode (.jp 0xABC) = [0x1A, 0xBC] := by
  decide
theorem test_decode_call : decode 0b0010_0010 0b0000_1010 = .ok (.call 0x20A) ∧
    encode (.call 0x20A) = [0x22, 0x0A] := by decide
theorem test_decode_seImm : decode 0b0011_0011 0b0010_1010 = .ok (.seImm 3 0x2A) ∧
    encode (.seImm 3 0x2A) = [0x33, 0x2A] := by decide
theorem test_decode_sneImm : decode 0b0100_0011 0b0010_1010 = .ok (.sneImm 3 0x2A) ∧
    encode (.sneImm 3 0x2A) = [0x43, 0x2A] := by decide
theorem test_decode_seReg : decode 0b0101_0001 0b0010_0000 = .ok (.seReg 1 2) ∧
    encode (.seReg 1 2) = [0x51, 0x20] := by decide
theorem test_decode_sneReg : decode 0b1001_0001 0b0010_0000 = .ok (.sneReg 1 2) ∧
    encode (.sneReg 1 2) = [0x91, 0x20] := by decide
theorem test_decode_ldImm : decode 0b0110_1010 0b0111_0111 = .ok (.ldImm 10 0x77) ∧
    encode (.ldImm 10 0x77) = [0x6A, 0x77] := by decide
theorem test_decode_addImm : decode 0b0111_0011 0b0000_1010 = .ok (.addImm 3 10) ∧
    encode (.addImm 3 10) = [0x73, 0x0A] := by decide
theorem test_decode_ldReg : decode 0b1000_0010 0b1111_0000 = .ok (.ldReg 2 15) ∧
    encode (.ldReg 2 15) = [0x82, 0xF0] := by decide
theorem test_decode_or : decode 0b1000_0001 0b0010_0001 = .ok (.orReg 1 2) ∧
    encode (.orReg 1 2) = [0x81, 0x21] := by decide
theorem test_decode_and : decode 0b1000_0001 0b0010_0010 = .ok (.andReg 1 2) ∧
    encode (.andReg 1 2) = [0x81, 0x22] := by decide
theorem test_decode_xor : decode 0b1000_0001 0b0010_0011 = .ok (.xorReg 1 2) ∧
    encode (.xorReg 1 2) = [0x81, 0x23] := by decide
theorem test_decode_addReg : decode 0b1000_0001 0b0010_0100 = .ok (.addReg 1 2) ∧
    encode (.addReg 1 2) = [0x81, 0x24] := by decide
theorem test_decode_sub : decode 0b1000_0001 0b0010_0101 = .ok (.sub 1 2) ∧
    encode (.sub 1 2) = [0x81, 0x25] := by decide
theorem test_decode_shr : decode 0b1000_0001 0b0010_0110 = .ok (.shr 1 2) ∧
    encode (.shr 1 2) = [0x81, 0x26] := by decide
theorem test_decode_subn : decode 0b1000_0001 0b0010_0111 = .ok (.subn 1 2) ∧
    encode (.subn 1 2) = [0x81, 0x27] := by decide
theorem test_decode_shl : decode 0b1000_0001 0b0010_1110 = .ok (.shl 1 2) ∧
    encode (.shl 1 2) = [0x81, 0x2E] := by decide
theorem test_decode_ldI : decode 0b1010_0011 0b0000_0001 = .ok (.ldI 0x301) ∧
    encode (.ldI 0x301) = [0xA3, 0x01] := by decide
theorem test_decode_drw : decode 0b1101_0000 0b0001_0101 = .ok (.drw 0 1 5) ∧
    encode (.drw 0 1 5) = [0xD0, 0x15] := by decide
theorem test_decode_bcd : decode 0b1111_0101 0b0011_0011 = .ok (.bcd 5) ∧ encode (.bcd 5) = [0xF5, 0x33] := by decide
theorem test_decode_stm : decode 0b1111_0010 0b0101_0101 = .ok (.stm 2) ∧ encode (.stm 2) = [0xF2, 0x55] := by decide
theorem test_decode_ldm : decode 0b1111_0010 0b0110_0101 = .ok (.ldm 2) ∧ encode (.ldm 2) = [0xF2, 0x65] := by decide

/-- The unknown words of T-UN1, T-UN2, T-UN6, T-UN8, T-UN13 and T-UN18, and input that is too short. -/
theorem test_decode_unknown : decode 0x00 0x00 = .error (.unknownInstruction 0x00 0x00) ∧
    decode 0x51 0x21 = .error (.unknownInstruction 0x51 0x21) ∧
    decode 0x81 0x2F = .error (.unknownInstruction 0x81 0x2F) ∧
    decode 0xB2 0x00 = .error (.unknownInstruction 0xB2 0x00) ∧
    decode 0xF0 0x0A = .error (.unknownInstruction 0xF0 0x0A) ∧
    decode 0xF0 0x34 = .error (.unknownInstruction 0xF0 0x34) ∧ decodeBytes [0x00] = .error .tooShort := by decide

/-! ### Fetch -/

/-- T-FE1: the last legal pc. -/
theorem test_fetch_last : after 0x6001 (·.setPc 0xFFE) (fun t => (t.getV 0, t.pc)) = some (0x01, 0x1000) := by decide
/-- T-FE2. -/
theorem test_fetch_fault : faultOf (step (State.reset.setPc 0xFFF)) = some (.boundsViolation .fetch 0x1000) := by decide
/-- T-FE4. -/
theorem test_fetch_fault_beyond : faultOf (step (State.reset.setPc 0x1002)) = some (.boundsViolation .fetch 0x1002) := by
  decide
/-- T-FE5: an odd pc. -/
theorem test_fetch_odd : after 0x6001 (·.setPc 0x201) (fun t => (t.getV 0, t.pc)) = some (0x01, 0x203) := by decide

/-! ### Control flow -/

/-- T-CF2. -/
theorem test_ret : after 0x00EE (fun s => ((s.push 0x206).push 0x404).setPc 0x300) (fun t => (t.pc, t.stack)) =
    some (0x404, [0x206]) := by decide
/-- T-CF3. -/
theorem test_ret_empty : after 0x00EE id (fun t => (t.pc, t.stack, t.log)) = some (0x202, [], [.emptyReturn]) := by decide
/-- T-CF4. -/
theorem test_jp : after 0x1ABC id State.pc = some 0xABC := by decide
/-- T-CF9. -/
theorem test_call : after 0x2300 (fun s => (s.push 0x206).setPc 0x20A) (fun t => (t.pc, t.stack)) =
    some (0x300, [0x206, 0x20C]) := by decide
/-- T-CF10. -/
theorem test_call_full : faults 0x2300 (fun s =>
    { s with pc := 0x300, stack := [0x206, 0x210], cfg := { s.cfg with stackCap := some 2 } }) = some .stackOverflow := by
  decide
/-- T-CF12. -/
theorem test_seImm_skips : after 0x332A (·.setV 3 0x2A) State.pc = some 0x204 := by decide
/-- T-CF13. -/
theorem test_seImm_stays : after 0x332A (·.setV 3 0x2B) State.pc = some 0x202 := by decide
/-- T-CF14. -/
theorem test_sneImm_stays : after 0x432A (·.setV 3 0x2A) State.pc = some 0x202 := by decide
/-- T-CF15. -/
theorem test_sneImm_skips : after 0x432A (·.setV 3 0x2B) State.pc = some 0x204 := by decide
/-- T-CF16. -/
theorem test_seReg_skips : after 0x5120 (fun s => (s.setV 1 7).setV 2 7) State.pc = some 0x204 := by decide
/-- T-CF17. -/
theorem test_seReg_stays : after 0x5120 (fun s => (s.setV 1 7).setV 2 8) State.pc = some 0x202 := by decide
/-- T-CF19. -/
theorem test_sneReg_skips : after 0x9120 (fun s => (s.setV 1 7).setV 2 8) State.pc = some 0x204 := by decide
/-- T-CF20. -/
theorem test_sneReg_stays : after 0x9120 (fun s => (s.setV 1 7).setV 2 7) State.pc = some 0x202 := by decide

/-! ### Register and ALU: (V1 or VF, VF) -/

/-- Registers x and F after a step. -/
def xAndF (x : Reg) (t : State) : Byte × Byte := (t.getV x, t.getV vf)

/-- T-AL1. -/
theorem test_ldImm : after 0x6A77 id (xAndF 10) = some (0x77, 0) := by decide
/-- T-AL3 (E6). -/
theorem test_addImm : after 0x730A (fun s => (s.setV 3 250).setV vf 1) (xAndF 3) = some (4, 1) := by decide
/-- T-AL6. -/
theorem test_addImm_vf : after 0x7FFF (·.setV vf 1) (xAndF 15) = some (0, 0) := by decide
/-- T-AL7. -/
theorem test_ldReg : after 0x82F0 (fun s => (s.setV 2 0x11).setV vf 1) (xAndF 2) = some (1, 1) := by decide
/-- T-AL9. -/
theorem test_or : after 0x8121 (fun s => ((s.setV 1 0xF0).setV 2 0x0F).setV vf 1) (xAndF 1) = some (0xFF, 1) := by decide
/-- T-AL10. -/
theorem test_and : after 0x8122 (fun s => ((s.setV 1 0xF0).setV 2 0x3C).setV vf 1) (xAndF 1) = some (0x30, 1) := by decide
/-- T-AL11. -/
theorem test_xor : after 0x8123 (fun s => ((s.setV 1 0xF0).setV 2 0x3C).setV vf 1) (xAndF 1) = some (0xCC, 1) := by decide
/-- T-AL13 (E7). -/
theorem test_addReg : after 0x8124 (fun s => (s.setV 1 0xFF).setV 2 1) (xAndF 1) = some (0, 1) := by decide
/-- T-AL18: x = F. -/
theorem test_addReg_vf : after 0x8F14 (fun s => (s.setV vf 0x10).setV 1 0xF5) (xAndF 15) = some (1, 1) := by decide
/-- T-AL22. -/
theorem test_sub : after 0x8125 (fun s => ((s.setV 1 5).setV 2 7).setV vf 1) (xAndF 1) = some (0xFE, 0) := by decide
/-- T-AL23: equal, no borrow. -/
theorem test_sub_equal : after 0x8125 (fun s => (s.setV 1 7).setV 2 7) (xAndF 1) = some (0, 1) := by decide
/-- T-AL27: V[y] is shifted, V[x] discarded. -/
theorem test_shr : after 0x8126 (fun s => (s.setV 1 0xAA).setV 2 5) (xAndF 1) = some (2, 1) := by decide
/-- T-AL31: x = F. -/
theorem test_shr_vf : after 0x8F26 (fun s => (s.setV 2 0xFF).setV vf 1) (xAndF 15) = some (0, 0) := by decide
/-- T-AL34. -/
theorem test_subn : after 0x8127 (fun s => ((s.setV 1 0x10).setV 2 1).setV vf 1) (xAndF 1) = some (0xF1, 0) := by decide
/-- T-AL36: x = F. -/
theorem test_subn_vf : after 0x8F27 (fun s => (s.setV vf 5).setV 2 7) (xAndF 15) = some (1, 1) := by decide
/-- T-AL38 and T-AL39: the value 0x80 without and with SHL_FLAG_GT. -/
theorem test_shl_boundary : after 0x812E (·.setV 2 0x80) (xAndF 1) = some (0, 1) ∧
    after 0x812E (fun s => { s.setV 2 0x80 with cfg := { s.cfg with shlFlagGt := true } }) (xAndF 1) = some (0, 0) := by
  decide
/-- T-AL44: x = F. -/
theorem test_shl_vf : after 0x8F2E (·.setV 2 0x90) (xAndF 15) = some (2, 2) := by decide

/-! ### Index and memory -/

/-- The bytes at an address. -/
def bytesAt (a n : Nat) (t : State) : List Byte := t.readBytes a n

/-- T-IM2. -/
theorem test_ldI : after 0xAFFF (·.setI 0x123) State.i = some 0xFFF := by decide
/-- T-IM8: the last legal I. -/
theorem test_bcd : after 0xF533 (fun s => (s.setV 5 123).setI 0xFFD) (bytesAt 0xFFD 3) = some [1, 2, 3] := by decide
/-- T-IM9. -/
theorem test_bcd_fault : faults 0xF533 (fun s => (s.setV 5 123).setI 0xFFE) = some (.boundsViolation .data 0x1000) := by
  decide
/-- T-IM11. -/
theorem test_stm : after 0xF255 (fun s => ((((s.setV 0 1).setV 1 2).setV 2 3).setV 3 4).setI 0x300) (bytesAt 0x300 4) =
    some [1, 2, 3, 0] := by decide
/-- T-IM14. -/
theorem test_stm_fault : faults 0xF155 (fun s => (s.setV 0 7).setI 0xFFF) = some (.boundsViolation .data 0x1000) := by
  decide
/-- T-IM16. -/
theorem test_ldm : after 0xF265 (fun s => ((s.writeBytes 0x300 [2, 3, 4, 5]).setI 0x300).setV 3 0x99)
    (fun t => (t.getV 0, t.getV 1, t.getV 2, t.getV 3)) = some (2, 3, 4, 0x99) := by decide
/-- T-IM19: the font. -/
theorem test_ldm_font : after 0xF165 (·.setI 0x50) (fun t => (t.getV 0, t.getV 1)) = some (0xF0, 0x90) := by decide

/-! ### Display -/

/-- T-DS1. -/
theorem test_cls : after 0x00E0 (fun s => (s.setFb ((s.fb.set 5 0x00FF000000000000).set 31 1)).setV vf 1)
    (fun t => (t.fb.get 5, t.fb.get 31, t.getV vf)) = some (0, 0, 1) := by decide
/-- T-DS13: overlap in row 0 only; the flag is sticky. -/
theorem test_drw : after 0xD012 (fun s => ((s.setFb (s.fb.set 0 0x0F00000000000000)).writeBytes 0x300 [0x3C, 0x3C]).setI 0x300)
    (fun t => (t.fb.get 0, t.fb.get 1, t.getV vf)) = some (0x3300000000000000, 0x3C00000000000000, 1) := by decide
/-- T-DS11: the last column and row, clipped. -/
theorem test_drw_clips : after 0xD011 (fun s => (((s.setV 0 255).setV 1 255).writeBytes 0x300 [0xFF]).setI 0x300)
    (fun t => (t.fb.get 31, t.fb.get 0, t.getV vf)) = some (1, 0, 0) := by decide

/-! ### Unknown instructions, messages, load -/

/-- T-UN2. -/
theorem test_unknown : after 0x5121 (fun s => (s.setV 0 0x55).setI 0x123) (fun t => (t.pc, t.getV 0, t.i, t.log)) =
    some (0x202, 0x55, 0x123, [.unknownInstruction 0x51 0x21]) := by decide
/-- 60_exceptions.md R226 to R228 (E14) and the numbers of R224. -/
theorem test_messages : Diagnostic.text .emptyReturn = "Warning: attempted to return while stack is empty." ∧
    Diagnostic.text (.unknownInstruction 0x51 0x21) = "Unknown instruction 5121; skipping" ∧
    LoadMessage.text .sizeExceeded = "ROM size too big" ∧ Fault.number (.boundsViolation .data 4096) = 2 := by decide
/-- 30_encoding.md R90's syntax, on the listing of P6. -/
theorem test_assembly : asmText (.ldI 0x05A) = "LD I, 0x05A" ∧ asmText (.drw 0 1 5) = "DRW V0, V1, 5" := by decide
/-- T-LD4: an odd rom. -/
theorem test_load_odd : ((Block.empty Config.default).load [0x60, 0x01, 0x12]).2 = .loaded (some .oddLength) ∧
    (((Block.empty Config.default).load [0x60, 0x01, 0x12]).1 = .loaded (State.load Config.default [] [0x60, 0x01, 0x12])) ∧
    bytesAt 0x200 4 (State.load Config.default [] [0x60, 0x01, 0x12]) = [0x60, 0x01, 0x12, 0x00] := by decide
/-- T-LD3, its boundary: 3585 bytes are refused. -/
theorem test_load_oversized (b : Block) (rom : List Byte) (h : rom.length = 3585) :
    b.load rom = (b, .failed .sizeExceeded) := by
  rw [Block.load, if_pos (by simp only [h, memSize, progBase]; omega)]

/-! ### Witnesses: for every statement with hypotheses, a state and operands that meet them all together, clause by
clause, at boundary values where a clause has a range -/

/-- Full registers: V[j] = 16 j + 15. -/
def someRegs : Vector Byte 16 := Vector.ofFn fun j => BitVec.ofNat 8 (16 * j.val + 15)

/-- A state that is not the reset state: registers, I, one call and a framebuffer row set. -/
def some0 : State := { State.reset with v := someRegs, i := 0x300, stack := [0x206], fb := State.reset.fb.set 3 0xFF }

/-- Under a cap of 2 entries with `st` on the stack. -/
def capped (st : List Word) : State := { some0 with stack := st, cfg := { Config.default with stackCap := some 2 } }

theorem witness_FieldsAreTheBitSlicesOfTheWord : (0x1ABC : Word) = (0x1A : Byte) ++ (0xBC : Byte) := by decide

theorem witness_DecodeOfEncodeIsTheInstruction : (Instr.drw 15 0 15).wellFormed = true := by decide

theorem witness_EncodeOfDecodeIsTheWord : decode 0xDF 0x0F = .ok (.drw 15 0 15) := by decide

theorem witness_DecoderAgreesWithTheOpcodeTable : decode 0xF0 0x65 = .ok (.ldm 0) ∧
    ∃ r ∈ opcodeTable, r.selects ((0xFF : Byte) ++ (0x65 : Byte)) ∧ r.mnemonic = "LDM" := by decide

/-- One word of each family of R87, the fields they share, and a word of none. -/
theorem witness_UnknownWordsAreThoseListed :
    decode 0x00 0xE1 = .error (.unknownInstruction 0x00 0xE1) ∧
    decode 0x5F 0xFF = .error (.unknownInstruction 0x5F 0xFF) ∧
    decode 0x81 0x28 = .error (.unknownInstruction 0x81 0x28) ∧
    decode 0x81 0x2F = .error (.unknownInstruction 0x81 0x2F) ∧
    decode 0x90 0x01 = .error (.unknownInstruction 0x90 0x01) ∧
    decode 0xB2 0x00 = .error (.unknownInstruction 0xB2 0x00) ∧
    decode 0xC0 0xFF = .error (.unknownInstruction 0xC0 0xFF) ∧
    decode 0xE0 0x9E = .error (.unknownInstruction 0xE0 0x9E) ∧
    decode 0xFF 0x34 = .error (.unknownInstruction 0xFF 0x34) ∧ decode 0xFF 0x33 = .ok (.bcd 15) := by decide

/-- At the last legal pc: an instruction, an unknown word and an instruction that faults. -/
theorem witness_StepAdvancesThenRunsTheDecodedInstruction :
    (∃ s : State, s.pc = 0xFFE ∧ s.fetchable ∧ decode s.b0 s.b1 = .ok (.ldImm 0 1)) ∧
    (∃ s : State, s.pc = 0xFFE ∧ s.fetchable ∧ decode s.b0 s.b1 = .error (.unknownInstruction 0x51 0x21)) ∧
    (∃ s : State, ∃ f, step s = .fault f) :=
  ⟨⟨setup 0x6001 (·.setPc 0xFFE), by decide⟩, ⟨setup 0x5121 (·.setPc 0xFFE), by decide⟩,
    ⟨setup 0xFF55 (·.setI 0xFF1), .boundsViolation .data 4096, fault_of_faultOf (by decide)⟩⟩

theorem witness_PlacedWordIsRunNext :
    (some0.setPc 0xFFE).fetchable ∧ decodeTableWord 16 0x8126 = some (.shr 1 2) := by decide

theorem witness_FetchPastTheTopFaults : 0xFFF ≤ (some0.setPc 0xFFF).pc.toNat ∧ 0xFFF ≤ (some0.setPc 0xFFFF).pc.toNat := by
  decide

theorem witness_UnknownInstructionIsLoggedAndSkipped : ∃ s : State, s.fetchable ∧
    decode s.b0 s.b1 = .error (.unknownInstruction 0xF0 0x34) := ⟨setup 0xF034 id, by decide⟩

/-- Steps complete from: JP, CALL, RET on a stack and on none, each skip, an unknown word, any other. -/
theorem witness_PcMovesAsTabled : ∀ w ∈ [0x1FFF, 0x2000, 0x00EE, 0x3000, 0x4000, 0x5010, 0x9010, 0x0000, 0x6001],
    ∃ t u, step (setup w id) = .next t ∧ step (setup w (fun _ => some0)) = .next u := by
  have h : ∀ w ∈ [0x1FFF, 0x2000, 0x00EE, 0x3000, 0x4000, 0x5010, 0x9010, 0x0000, 0x6001],
      (okOf (step (setup w id))).isSome = true ∧ (okOf (step (setup w (fun _ => some0)))).isSome = true := by decide
  intro w hw
  obtain ⟨⟨t, ht⟩, u, hu⟩ := And.imp next_of_okOf next_of_okOf (h w hw)
  exact ⟨t, u, ht, hu⟩

/-- An unknown word, RET on no stack, RET on a stack, and another instruction. -/
theorem witness_StepEmitsAtMostOneDiagnostic : (∃ t, step (setup 0xE09E id) = .next t) ∧
    (∃ t, step (setup 0x00EE id) = .next t) ∧ (∃ t, step (setup 0x00EE (fun _ => some0)) = .next t) ∧
    (∃ t, step (setup 0xA300 id) = .next t) :=
  ⟨next_of_okOf (by decide), next_of_okOf (by decide), next_of_okOf (by decide), next_of_okOf (by decide)⟩

/-- Each of the three causes happens. -/
theorem witness_FaultsHaveExactlyTheListedCauses :
    faultOf (step (some0.setPc 0xFFF)) = some (.boundsViolation .fetch 4096) ∧
    faults 0xDF1F (fun _ => some0.setI 0xFF2) = some (.boundsViolation .data 4096) ∧
    faults 0x2300 (fun _ => capped [2, 4]) = some .stackOverflow := by decide

theorem witness_FaultedStepChangesNothingAndRepeats : ∃ s : State, step s = .fault .stackOverflow :=
  ⟨setup 0x2300 (fun _ => capped [2, 4]), fault_of_faultOf (by decide)⟩

/-- The first I out of range, for each of the four. -/
theorem witness_OutOfRangeTransferFaults : ¬inBounds (some0.setI 0xFFE).i.toNat (dataLen (.bcd 0)) ∧
    ¬inBounds (some0.setI 0xFF1).i.toNat (dataLen (.stm 15)) ∧ ¬inBounds (some0.setI 0xFFF).i.toNat (dataLen (.ldm 1)) ∧
    ¬inBounds (some0.setI 0xFF2).i.toNat (dataLen (.drw 0 0 15)) := by decide

/-- The last I in range, a draw of no rows anywhere, and a call with room for one more. -/
theorem witness_InstructionsInBoundsComplete : inBounds (some0.setI 0xFFD).i.toNat (dataLen (.bcd 0)) ∧
    inBounds (some0.setI 0xFF0).i.toNat (dataLen (.stm 15)) ∧ inBounds (some0.setI 0xFFF).i.toNat (dataLen (.ldm 0)) ∧
    inBounds (some0.setI 0xFFFF).i.toNat (dataLen (.drw 0 0 0)) ∧
    (inBounds (capped [2]).i.toNat (dataLen (.call 0)) ∧ (capped [2]).cfg.stackCap ≠ some (capped [2]).stack.length) := by
  decide

/-- P5, two steps of it: A FFF, then F155. -/
theorem witness_ReachableDataFaultsReport4096 :
    ∃ s : State, Reachable s ∧ step s = .fault (.boundsViolation .data 4096) :=
  ⟨((State.load Config.default [] [0xAF, 0xFF, 0xF1, 0x55]).setPc 0x202).setI 0xFFF,
    .step (.load Config.default [] [0xAF, 0xFF, 0xF1, 0x55] (by decide)) rfl, fault_of_faultOf (by decide)⟩

theorem witness_ReturnPopsOrWarns : some0.stack = [] ++ [0x206] ∧ State.reset.stack = [] := by decide

theorem witness_JumpSetsPc : ∃ s : State, s.idle := ⟨setup 0x1200 id, by decide, 0x200, by decide⟩

/-- With no cap, one below the cap, and at the cap. -/
theorem witness_CallPushesAndJumps : some0.cfg.stackCap ≠ some some0.stack.length ∧
    (capped [2]).cfg.stackCap ≠ some (capped [2]).stack.length ∧
    (capped [2, 4]).cfg.stackCap = some (capped [2, 4]).stack.length := by decide

/-- A call to the last address that has a two-byte window. -/
theorem witness_CallThenReturnComesBack : ∃ s : State, s.fetchable ∧ decode s.b0 s.b1 = .ok (.call 0xFFE) ∧
    s.cfg.stackCap ≠ some s.stack.length ∧ (0xFFE : Addr).toNat + 1 < 4096 ∧
    decode (s.memByte (0xFFE : Addr).toNat) (s.memByte ((0xFFE : Addr).toNat + 1)) = .ok .ret :=
  ⟨setup 0x2FFE (·.writeBytes 0xFFE [0x00, 0xEE]), by decide⟩

/-- Each skip at the last legal pc. -/
theorem witness_SkipStepsGoByFourOrTwo : ∀ p ∈ [(0x300F, Instr.seImm 0 15), (0x400F, .sneImm 0 15), (0x5010, .seReg 0 1),
    (0x9010, .sneReg 0 1)], (setup p.1 (fun _ => some0.setPc 0xFFE)).fetchable ∧
    decode (setup p.1 (fun _ => some0.setPc 0xFFE)).b0 (setup p.1 (fun _ => some0.setPc 0xFFE)).b1 = .ok p.2 := by decide

theorem witness_OnlyCallAndReturnTouchTheStack : (∃ t, exec (.call 0xFFF) some0 = .next t) ∧
    (∃ t, exec .ret State.reset = .next t) ∧ (∃ t, exec .ret some0 = .next t) ∧
    (∃ t, exec (.addReg 1 15) some0 = .next t) ∧ (∃ t, execUnknown 0xC0 0xFF some0 = .next t) :=
  ⟨⟨_, rfl⟩, ⟨_, rfl⟩, ⟨_, rfl⟩, ⟨_, rfl⟩, ⟨_, rfl⟩⟩

/-- A register file that agrees on the registers read and on no other: an instruction that completes, one that
faults, and the unknown one. -/
theorem witness_RegistersAreReadAndWrittenAsTabled :
    ((∀ j, regsRead (.shr 1 2) j = true → ((Vector.replicate 16 0).set 2 47).get j = some0.v.get j) ∧
      ∃ t, exec (.shr 1 2) some0 = .next t) ∧
    ((∀ j, regsRead (.ldm 15) j = true → (Vector.replicate 16 0).get j = some0.v.get j) ∧
      exec (.ldm 15) (some0.setI 0xFF1) = .fault (.boundsViolation .data 4096)) ∧
    (∃ t, execUnknown 0xC0 0xFF some0 = .next t) :=
  ⟨⟨by decide, _, rfl⟩, ⟨by decide, fault_of_faultOf (by decide)⟩, _, rfl⟩

/-- A destination that is not VF, and VF itself. -/
theorem witness_AddRegisterWithCarry : (14 : Reg) ≠ vf ∧ (15 : Reg) = vf := by decide
theorem witness_SubtractWithNoBorrow : (0 : Reg) ≠ vf ∧ (15 : Reg) = vf := by decide
theorem witness_ShiftRightOfTheCopy : (14 : Reg) ≠ vf ∧ (15 : Reg) = vf := by decide
theorem witness_ShiftLeftOfTheCopy : (0 : Reg) ≠ vf ∧ (15 : Reg) = vf := by decide

theorem witness_ShlParameterMattersOnlyAt80 : (some0.setV 2 0x81).getV 2 ≠ 0x80 ∧
    ∃ t, exec (.shl 1 2) (some0.setV 2 0x81) = .next t := ⟨by decide, _, rfl⟩

theorem witness_LoadIndexIsTheOnlyWriterOfI :
    ((∀ nnn, Instr.stm 15 ≠ .ldI nnn) ∧ ∃ t, exec (.stm 15) (some0.setI 0xFF0) = .next t) ∧
    ∃ t, execUnknown 0xF0 0x1E some0 = .next t :=
  ⟨⟨by simp, next_of_okOf (by decide)⟩, _, rfl⟩

theorem witness_BcdStoresThreeDigits : (some0.setI 0xFFD).i.toNat + 2 < 4096 := by decide

theorem witness_StoreRegistersAtIndex : (some0.setI 0xFF0).i.toNat + (15 : Reg).val < 4096 ∧
    (some0.setI 0xFFF).i.toNat + (0 : Reg).val < 4096 := by decide

theorem witness_LoadRegistersFromIndex : (some0.setI 0xFF0).i.toNat + (15 : Reg).val < 4096 ∧
    (some0.setI 0xFFF).i.toNat + (0 : Reg).val < 4096 := by decide

/-- The state after the store, with other registers. -/
theorem witness_StoreThenLoadRestoresRegisters : ∃ t u : State, exec (.stm 15) (some0.setI 0xFF0) = .next t ∧
    u.mem = t.mem ∧ u.cfg = t.cfg ∧ u.i = (some0.setI 0xFF0).i ∧ u.v ≠ t.v := by
  obtain ⟨t, ht⟩ := next_of_okOf (r := exec (.stm 15) (some0.setI 0xFF0)) (by decide)
  refine ⟨t, { t with v := t.v.set 0 (t.v[0] + 1), i := 0xFF0 }, ht, rfl, rfl, rfl, fun h => ?_⟩
  simpa using congrArg (fun v : Vector Byte 16 => v[0]) h

theorem witness_OnlyBcdAndStmWriteMemory : ∃ s t : State, step s = .next t ∧ (∀ x, decode s.b0 s.b1 ≠ .ok (.bcd x)) ∧
    (∀ x, decode s.b0 s.b1 ≠ .ok (.stm x)) := by
  obtain ⟨t, ht⟩ := next_of_okOf (r := step (setup 0xF265 id)) (by decide)
  exact ⟨_, t, ht, by decide, by decide⟩

theorem witness_OnlyDrwAndLdmReadMemory : (∀ x y n, Instr.stm 15 ≠ .drw x y n) ∧ (∀ x, Instr.stm 15 ≠ .ldm x) ∧
    ∃ t, exec (.stm 15) (some0.setI 0xFF0) = .next t :=
  ⟨by simp, by simp, next_of_okOf (by decide)⟩

/-- The last pair of a store of all sixteen: V[14], V[15] = 6F 42, at I + 14. -/
theorem witness_StoredInstructionIsFetchedNext : ∃ s t : State, exec (.stm 15) s = .next t ∧
    s.pc.toNat = s.i.toNat + 14 ∧ decode (s.getV 14) (s.getV 15) = .ok (.ldImm 15 0x42) := by
  obtain ⟨t, ht⟩ := next_of_okOf
    (r := exec (.stm 15) ((((some0.setI 0xFF0).setPc 0xFFE).setV 14 0x6F).setV 15 0x42)) (by decide)
  exact ⟨_, t, ht, by decide, by decide⟩

theorem witness_EqualReadsAreEqualMemories : Memory.wf Config.default [(0x000, 1), (0x050, 0), (0xFFF, 255)] :=
  ⟨by decide, by decide⟩

theorem witness_RowMaskPlacesAndClipsPixels : 0 < 64 ∧ 63 < 64 := by decide

/-- Fifteen rows up to the last byte, and no rows with I anywhere. -/
theorem witness_SpriteRowsAreXoredAndCollisionIsSticky : inBounds (some0.setI 0xFF1).i.toNat 15 ∧
    inBounds (some0.setI 0xFFFF).i.toNat 0 := by decide

theorem witness_DrawTogglesTheSpritePixels : inBounds (some0.setI 0xFF1).i.toNat 15 ∧
    inBounds (some0.setI 0xFFFF).i.toNat 0 := by decide

theorem witness_DrawingTwiceRestoresTheFramebuffer : ∃ t, exec (.drw 15 1 15) (some0.setI 0xFF1) = .next t :=
  next_of_okOf (by decide)

theorem witness_FramebufferWritersAndReaders : (∃ t, exec (.ldm 15) (some0.setI 0xFF0) = .next t) ∧
    (∃ t, exec (.drw 15 1 15) (some0.setI 0xFF1) = .next t) ∧ (∃ t, execUnknown 0xC0 0xFF some0 = .next t) :=
  ⟨next_of_okOf (by decide), next_of_okOf (by decide), _, rfl⟩

theorem witness_UntouchedFramebufferIsUnchanged :
    (∃ t, step (setup 0x00EE (fun _ => some0)) = .next t) ∧ framebufferTouched (setup 0x00EE (fun _ => some0)) = false :=
  ⟨next_of_okOf (by decide), by decide⟩

/-- A rom of a length. -/
def romOf (n : Nat) : List Byte := List.replicate n 0xAA

@[simp] theorem length_romOf (n : Nat) : (romOf n).length = n := List.length_replicate

theorem witness_LoadMakesTheTabledState : (romOf 3584).length ≤ 3584 := by simp

theorem witness_OversizedRomLeavesTheBlockUntouched : (romOf 3585).length > 3584 ∧
    (romOf 3584).length ≤ 3584 := by simp

theorem witness_OddRomIsAcceptedWithAnAdvisory : (romOf 3583).length ≤ 3584 ∧
    (romOf 3583).length % 2 = 1 ∧ (romOf 3584).length % 2 = 0 := by simp

theorem witness_LoadReplacesEverything : (Block.empty Config.default).cfg = (Block.loaded some0).cfg ∧
    (Block.empty Config.default).log = (Block.loaded some0).log ∧ (romOf 3584).length ≤ 3584 :=
  ⟨rfl, rfl, by simp⟩

theorem witness_StepBeforeLoadIsRefused : (romOf 3585).length > 3584 := by simp

theorem witness_LoadMeetsTheInvariant : (romOf 3584).length ≤ 3584 := by simp

/-- The invariant at its bounds (pc and a return address at the top, a full capped stack, the last byte written), and a
step that completes. -/
theorem witness_StepKeepsTheInvariant : ∃ s t : State, s.Inv ∧ step s = .next t :=
  ⟨{ some0 with
      i := 0xFFF, pc := 0xFFE, stack := [2, 0x1000], mem := [(0xFFE, 0x1F), (0xFFF, 0xFF)],
      cfg := { Config.default with stackCap := some 2 } }, _,
    ⟨by decide, by decide, by simp, by simp, by decide, by decide⟩, rfl⟩

theorem witness_ReachableStatesMeetTheInvariant : Reachable State.reset ∧ ∃ t, step State.reset = .next t :=
  ⟨.load Config.default [] [] (by decide), _, rfl⟩

end Sys2Proof.Tests.Slice0
end

section
/-! The call stack and the framebuffer as frames (10_state.md R30, R32): which instructions write them, and that no
other instruction's outcome depends on them. -/

namespace Sys2Proof.Machine

/-! ### The shared operations under another stack and framebuffer -/

theorem State.skipIf_with_stack_fb (s : State) (c : Bool) (st : List Word) (fb : Vector Row 32) :
    State.skipIf { s with stack := st, fb := fb } c = { s.skipIf c with stack := st, fb := fb } := by
  cases c <;> rfl

theorem State.writeBytes_with_stack_fb (s : State) (base : Nat) (bs : List Byte) (st : List Word)
    (fb : Vector Row 32) :
    State.writeBytes { s with stack := st, fb := fb } base bs =
      { s.writeBytes base bs with stack := st, fb := fb } := by
  rw [State.writeBytes_congr (s := s) (t := { s with stack := st, fb := fb }) rfl rfl]
  simp

theorem State.loadRegs_with_stack_fb (s : State) (x : Reg) (a : Nat) (st : List Word) (fb : Vector Row 32) :
    State.loadRegs { s with stack := st, fb := fb } x a = { s.loadRegs x a with stack := st, fb := fb } := by
  simp only [State.loadRegs, State.memByte, State.getV]

/-- The picture DRW draws does not depend on the stack. -/
theorem State.drawn_with_stack (s : State) (x y : Reg) (n : Nat) (st : List Word) :
    State.drawn { s with stack := st } x y n = { s.drawn x y n with stack := st } := by
  have hbytes : State.readBytes { s with stack := st } s.i.toNat n = s.readBytes s.i.toNat n :=
    State.readBytes_congr (s := s) (t := { s with stack := st }) rfl rfl _ _
  simp only [State.drawn, hbytes]
  rfl

/-- The picture DRW draws over shows in nothing of what it leaves but the framebuffer and the registers. -/
theorem State.drawn_with_fb (s : State) (x y : Reg) (n : Nat) (fb : Vector Row 32) :
    { State.drawn { s with fb := fb } x y n with fb := (s.drawn x y n).fb, v := (s.drawn x y n).v } =
      s.drawn x y n := rfl

theorem State.drawn_getV_of_ne (s : State) (x y : Reg) (n : Nat) {j : Reg} (hj : j ≠ vf) :
    (s.drawn x y n).getV j = s.getV j := by
  simp [State.drawn, hj]

/-! ### What an instruction does under another stack or framebuffer -/

/-- An instruction that uses neither the stack nor the framebuffer leaves both as they were, and does the same under
any others. -/
theorem exec_with_stack_fb {i : Instr} {s t : State} (hret : i ≠ .ret) (hcall : ∀ nnn, i ≠ .call nnn)
    (hcls : i ≠ .cls) (hdrw : ∀ x y n, i ≠ .drw x y n) (h : exec i s = .next t) :
    t.stack = s.stack ∧ t.fb = s.fb ∧ ∀ (st : List Word) (fb : Vector Row 32),
      exec i { s with stack := st, fb := fb } = .next { t with stack := st, fb := fb } := by
  cases i with
  | ret => exact absurd rfl hret
  | call nnn => exact absurd rfl (hcall nnn)
  | cls => exact absurd rfl hcls
  | drw x y n => exact absurd rfl (hdrw x y n)
  | seImm | sneImm | seReg | sneReg =>
    simp only [exec_seImm_next, exec_sneImm_next, exec_seReg_next, exec_sneReg_next] at h ⊢
    subst h
    exact ⟨State.skipIf_stack .., State.skipIf_fb .., fun st fb => (State.skipIf_with_stack_fb ..).symm⟩
  | jp | ldI | ldImm | addImm | ldReg | orReg | andReg | xorReg | addReg | sub | subn | shr | shl =>
    simp only [exec_jp_next, exec_ldI_next, exec_ldImm_next, exec_addImm_next, exec_ldReg_next, exec_orReg_next,
      exec_andReg_next, exec_xorReg_next, exec_addReg_next, exec_sub_next, exec_subn_next, exec_shr_next,
      exec_shl_next] at h ⊢
    subst h
    exact ⟨rfl, rfl, fun st fb => rfl⟩
  | bcd | stm =>
    simp only [exec_bcd_next, exec_stm_next] at h ⊢
    obtain ⟨hb, rfl⟩ := h
    exact ⟨State.writeBytes_stack .., State.writeBytes_fb ..,
      fun st fb => ⟨hb, (State.writeBytes_with_stack_fb ..).symm⟩⟩
  | ldm x =>
    simp only [exec_ldm_next] at h ⊢
    obtain ⟨hb, rfl⟩ := h
    exact ⟨rfl, rfl, fun st fb => ⟨hb, (State.loadRegs_with_stack_fb ..).symm⟩⟩

/-- An instruction other than RET and CALL leaves the stack, and does the same under any other. -/
theorem exec_with_stack {i : Instr} {s t : State} (hret : i ≠ .ret) (hcall : ∀ nnn, i ≠ .call nnn)
    (h : exec i s = .next t) :
    t.stack = s.stack ∧ ∀ st : List Word, exec i { s with stack := st } = .next { t with stack := st } := by
  cases i with
  | cls =>
    simp only [exec_cls_next] at h ⊢
    subst h
    exact ⟨rfl, fun st => rfl⟩
  | drw x y n =>
    simp only [exec_drw_next] at h ⊢
    obtain ⟨hb, rfl⟩ := h
    exact ⟨rfl, fun st => ⟨hb, (State.drawn_with_stack ..).symm⟩⟩
  | _ =>
    obtain ⟨hstack, hfb, hexec⟩ := exec_with_stack_fb hret hcall (by simp) (by simp) h
    exact ⟨hstack, fun st => by simpa only [← hfb] using hexec st s.fb⟩

/-- An instruction other than CLS and DRW leaves the framebuffer, and does the same under any other. -/
theorem exec_with_fb {i : Instr} {s t : State} (hcls : i ≠ .cls) (hdrw : ∀ x y n, i ≠ .drw x y n)
    (h : exec i s = .next t) :
    t.fb = s.fb ∧ ∀ fb : Vector Row 32, exec i { s with fb := fb } = .next { t with fb := fb } := by
  cases i with
  | ret =>
    simp only [exec_ret_next] at h ⊢
    obtain ⟨hs, rfl⟩ | ⟨w, hw, rfl⟩ := h
    · exact ⟨rfl, fun fb => .inl ⟨hs, rfl⟩⟩
    · exact ⟨rfl, fun fb => .inr ⟨w, hw, rfl⟩⟩
  | call nnn =>
    simp only [exec_call_next] at h ⊢
    obtain ⟨hcap, rfl⟩ := h
    exact ⟨rfl, fun fb => ⟨hcap, rfl⟩⟩
  | _ =>
    obtain ⟨hstack, hfb, hexec⟩ := exec_with_stack_fb (by simp) (by simp) hcls hdrw h
    exact ⟨hfb, fun fb => by simpa only [← hstack] using hexec s.stack fb⟩

/-- Under any framebuffer an instruction completes alike, but for the framebuffer and DRW's VF. -/
theorem exec_under_fb {i : Instr} {s t : State} (h : exec i s = .next t) (fb : Vector Row 32) :
    ∃ t', exec i { s with fb := fb } = .next t' ∧ { t' with fb := t.fb, v := t.v } = t ∧
      (∀ j, j ≠ vf → t'.getV j = t.getV j) ∧ ((∀ x y n, i ≠ .drw x y n) → t'.getV vf = t.getV vf) := by
  cases i with
  | cls => exact ⟨t, h, rfl, fun _ _ => rfl, fun _ => rfl⟩
  | drw x y n =>
    obtain ⟨hb, rfl⟩ := (exec_drw_next s t x y n).1 h
    refine ⟨_, (exec_drw_next _ _ x y n).2 ⟨hb, rfl⟩, State.drawn_with_fb .., fun j hj => ?_,
      fun hi => absurd rfl (hi x y n)⟩
    rw [State.drawn_getV_of_ne _ _ _ _ hj, State.drawn_getV_of_ne _ _ _ _ hj]
    rfl
  | _ =>
    obtain ⟨-, hexec⟩ := exec_with_fb (by simp) (by simp) h
    exact ⟨_, hexec fb, rfl, fun _ _ => rfl, fun _ => rfl⟩

/-! ### The statements -/

/-- RET drops the top of the stack, if there is one, and warns when there is none. -/
theorem exec_ret_stack {s t : State} (h : exec .ret s = .next t) :
    t.stack = s.stack.dropLast ∧ (s.stack = [] → t.log = s.log ++ [.emptyReturn]) := by
  obtain ⟨hs, rfl⟩ | ⟨w, hw, rfl⟩ := (exec_ret_next s t).1 h
  · exact ⟨by simp [hs], fun _ => rfl⟩
  · exact ⟨rfl, fun hs => by simp [hs] at hw⟩

/-- Settles O25, from what RET and CALL do to the stack and the frame of every other instruction. -/
theorem onlyCallAndReturnTouchTheStack : Obligations.OnlyCallAndReturnTouchTheStack := by
  intro s t
  refine ⟨fun nnn h => ?_, exec_ret_stack, fun i hret hcall => exec_with_stack hret hcall, fun b0 b1 h => ?_⟩
  · obtain ⟨-, rfl⟩ := (exec_call_next s t nnn).1 h
    rfl
  · obtain rfl := Host.Outcome.next.inj h
    rfl

/-- Settles O48, from the frame of the instructions that do not draw and the effect of CLS and DRW. -/
theorem framebufferWritersAndReaders : Obligations.FramebufferWritersAndReaders := by
  refine ⟨fun i s t h => ⟨fun hcls hdrw => (exec_with_fb hcls hdrw h).1, exec_under_fb h⟩,
    fun b0 b1 s t h => ?_⟩
  obtain rfl := Host.Outcome.next.inj h
  rfl

end Sys2Proof.Machine
end

section
/-! The word and its fields (30_encoding.md R81, R82): the fields are read from the bits of the word, and each format
puts the word together again from its fields. -/

namespace Sys2Proof

theorem nibbles_append (b : Byte) : b.extractLsb' 4 4 ++ b.extractLsb' 0 4 = b :=
  (BitVec.extractLsb'_append_extractLsb'_eq_extractLsb' rfl).trans BitVec.extractLsb'_eq_self

theorem fieldsOf_nn_eq (b0 b1 : Byte) :
    (fieldsOf b0 b1).nn = (fieldsOf b0 b1).y ++ (fieldsOf b0 b1).n := (nibbles_append b1).symm

/-- Settles O2: the fields of b0 lie above the eight bits of b1 in the word, and those of b1 are its low bits. -/
theorem fieldsAreTheBitSlicesOfTheWord : Obligations.FieldsAreTheBitSlicesOfTheWord := by
  rintro b0 b1 _ rfl
  have hopcat : (fieldsOf b0 b1).opcat = (b0 ++ b1).extractLsb' 12 4 :=
    (BitVec.extractLsb'_append_eq_of_le (show 8 ≤ 12 by decide)).symm
  have hx : (fieldsOf b0 b1).x = (b0 ++ b1).extractLsb' 8 4 :=
    (BitVec.extractLsb'_append_eq_of_le (show 8 ≤ 8 by decide)).symm
  have hy : (fieldsOf b0 b1).y = (b0 ++ b1).extractLsb' 4 4 :=
    (BitVec.extractLsb'_append_eq_of_add_le (show 4 + 4 ≤ 8 by decide)).symm
  have hn : (fieldsOf b0 b1).n = (b0 ++ b1).extractLsb' 0 4 :=
    (BitVec.extractLsb'_append_eq_of_add_le (show 0 + 4 ≤ 8 by decide)).symm
  have hnn : (fieldsOf b0 b1).nn = (b0 ++ b1).extractLsb' 0 8 := BitVec.extractLsb'_append_eq_right.symm
  have hnnn : (fieldsOf b0 b1).nnn = (b0 ++ b1).extractLsb' 0 12 :=
    (congrArg₂ (· ++ ·) hx hnn).trans (BitVec.extractLsb'_append_extractLsb'_eq_extractLsb' rfl)
  exact ⟨hopcat, hx, hy, hn, hnn, hnnn, fieldsOf_nn_eq b0 b1, rfl⟩

/-! ### The word from its fields, format by format -/

theorem wordXNN_eq_append {b0 b1 : Byte} {op : BitVec 4} {nn : Byte} (hop : (fieldsOf b0 b1).opcat = op)
    (hnn : (fieldsOf b0 b1).nn = nn) : wordXNN op (regOf (fieldsOf b0 b1).x) nn = b0 ++ b1 := by
  subst hop hnn
  exact congrArg (· ++ b1) (nibbles_append b0)

theorem wordNNN_eq_append {b0 b1 : Byte} {op : BitVec 4} {nnn : Addr} (hop : (fieldsOf b0 b1).opcat = op)
    (hnnn : (fieldsOf b0 b1).nnn = nnn) : wordNNN op nnn = b0 ++ b1 := by
  subst hop hnnn
  exact BitVec.append_assoc'.trans (wordXNN_eq_append rfl rfl)

theorem wordXYN_eq_append {b0 b1 : Byte} {op n : BitVec 4} (hop : (fieldsOf b0 b1).opcat = op)
    (hn : (fieldsOf b0 b1).n = n) :
    wordXYN op (regOf (fieldsOf b0 b1).x) (regOf (fieldsOf b0 b1).y) n = b0 ++ b1 := by
  subst hop hn
  exact congrArg₂ (· ++ ·) (nibbles_append b0) (nibbles_append b1)

end Sys2Proof
end

section
/-! The decoder against the opcode table (30_encoding.md R84). What decodes is encoded by the word it came from, so it
selects the row of its mnemonic; a selected row fixes the fields that dispatch reads; and no two rows agree on the bits
that both fix. -/

namespace Sys2Proof

/-! ### What decodes is the instruction of the word -/

/-- Every answer of dispatch is an instruction, and its encoding is the word the fields come from. -/
theorem encodeWord_of_dispatch {b0 b1 : Byte} {i : Instr} (h : dispatch (fieldsOf b0 b1) = some i) :
    i.wellFormed = true ∧ encodeWord i = b0 ++ b1 := by
  unfold dispatch at h
  split at h
  case h_1 hop =>
    split at h
    case h_1 hnnn | h_2 hnnn => obtain rfl := Option.some.inj h; exact ⟨rfl, wordNNN_eq_append hop hnnn⟩
    case h_3 => cases h
  case h_2 hop | h_3 hop | h_11 hop => obtain rfl := Option.some.inj h; exact ⟨rfl, wordNNN_eq_append hop rfl⟩
  case h_4 hop | h_5 hop | h_7 hop | h_8 hop =>
    obtain rfl := Option.some.inj h; exact ⟨rfl, wordXNN_eq_append hop rfl⟩
  case h_6 hop | h_10 hop =>
    split at h
    case h_1 hn => obtain rfl := Option.some.inj h; exact ⟨rfl, wordXYN_eq_append hop hn⟩
    case h_2 => cases h
  case h_9 hop =>
    split at h
    case h_10 => cases h
    all_goals next hn => obtain rfl := Option.some.inj h; exact ⟨rfl, wordXYN_eq_append hop hn⟩
  case h_12 hop =>
    obtain rfl := Option.some.inj h
    exact ⟨decide_eq_true (fieldsOf b0 b1).n.isLt, wordXYN_eq_append hop (by simp)⟩
  case h_13 hop =>
    split at h
    case h_4 => cases h
    all_goals next hnn => obtain rfl := Option.some.inj h; exact ⟨rfl, wordXNN_eq_append hop hnn⟩
  case h_14 => cases h

/-- A well-formed instruction's word selects the row of its mnemonic: the per-constructor lemmas together. -/
theorem encodeWord_selects_row (i : Instr) : Laws.RowSelected.Statement i :=
  match i with
  | .cls => Laws.RowSelected.cls
  | .ret => Laws.RowSelected.ret
  | .jp nnn => Laws.RowSelected.jp nnn
  | .call nnn => Laws.RowSelected.call nnn
  | .seImm x nn => Laws.RowSelected.seImm x nn
  | .sneImm x nn => Laws.RowSelected.sneImm x nn
  | .seReg x y => Laws.RowSelected.seReg x y
  | .sneReg x y => Laws.RowSelected.sneReg x y
  | .ldImm x nn => Laws.RowSelected.ldImm x nn
  | .addImm x nn => Laws.RowSelected.addImm x nn
  | .ldReg x y => Laws.RowSelected.ldReg x y
  | .orReg x y => Laws.RowSelected.orReg x y
  | .andReg x y => Laws.RowSelected.andReg x y
  | .xorReg x y => Laws.RowSelected.xorReg x y
  | .addReg x y => Laws.RowSelected.addReg x y
  | .sub x y => Laws.RowSelected.sub x y
  | .shr x y => Laws.RowSelected.shr x y
  | .subn x y => Laws.RowSelected.subn x y
  | .shl x y => Laws.RowSelected.shl x y
  | .ldI nnn => Laws.RowSelected.ldI nnn
  | .drw x y n => Laws.RowSelected.drw x y n
  | .bcd x => Laws.RowSelected.bcd x
  | .stm x => Laws.RowSelected.stm x
  | .ldm x => Laws.RowSelected.ldm x

/-! ### A selected row fixes the fields that dispatch reads -/

/-- A field that the mask of a selected row keeps whole is that field of the row's value. -/
theorem fields_of_selects {b0 b1 : Byte} {r : OpcodeRow} (h : r.selects (b0 ++ b1)) :
    (r.mask.extractLsb' 12 4 = .allOnes 4 → (fieldsOf b0 b1).opcat = r.value.extractLsb' 12 4) ∧
    (r.mask.extractLsb' 0 12 = .allOnes 12 → (fieldsOf b0 b1).nnn = r.value.extractLsb' 0 12) ∧
    (r.mask.extractLsb' 0 8 = .allOnes 8 → (fieldsOf b0 b1).nn = r.value.extractLsb' 0 8) ∧
    (r.mask.extractLsb' 0 4 = .allOnes 4 → (fieldsOf b0 b1).n = r.value.extractLsb' 0 4) := by
  obtain ⟨hopcat, -, -, hn, hnn, hnnn, -, -⟩ := fieldsAreTheBitSlicesOfTheWord b0 b1 _ rfl
  have slice {start len : Nat} (hmask : r.mask.extractLsb' start len = .allOnes len) :
      (b0 ++ b1).extractLsb' start len = r.value.extractLsb' start len := by
    rw [← h, BitVec.extractLsb'_and, hmask, BitVec.and_allOnes]
  exact ⟨fun hm => hopcat.trans (slice hm), fun hm => hnnn.trans (slice hm), fun hm => hnn.trans (slice hm),
    fun hm => hn.trans (slice hm)⟩

/-- Dispatch answers the instruction of a selected row: each row's mask keeps whole the fields on which dispatch
branches for it. -/
theorem dispatch_of_selects {b0 b1 : Byte} {r : OpcodeRow} (hr : r ∈ opcodeTable) (h : r.selects (b0 ++ b1)) :
    ∃ i, dispatch (fieldsOf b0 b1) = some i ∧ i.mnemonic = r.mnemonic := by
  obtain ⟨hop, hnnn, hnn, hn⟩ := fields_of_selects h
  clear h
  simp only [opcodeTable, List.cons_append, List.nil_append, List.mem_cons, List.not_mem_nil, or_false] at hr
  rcases hr with rfl | rfl | rfl | rfl | rfl | rfl | rfl | rfl | rfl | rfl | rfl | rfl | rfl | rfl | rfl | rfl | rfl |
    rfl | rfl | rfl | rfl | rfl | rfl | rfl
  all_goals simp [dispatch, Instr.mnemonic, hop, hnnn, hnn, hn]

/-! ### No two rows are selected by one word -/

/-- Two rows that agree on the bits both fix are one row. -/
theorem opcodeTable_disjoint : ∀ r ∈ opcodeTable, ∀ r' ∈ opcodeTable,
    r.value &&& r'.mask = r'.value &&& r.mask → r' = r := by decide

theorem eq_of_selects {r r' : OpcodeRow} {w : Word} (hr : r ∈ opcodeTable) (hr' : r' ∈ opcodeTable)
    (h : r.selects w) (h' : r'.selects w) : r' = r := by
  refine opcodeTable_disjoint r hr r' hr' ?_
  rw [← h, ← h', BitVec.and_assoc, BitVec.and_assoc, BitVec.and_comm r.mask]

/-- Settles O5: the row of what decodes, the instruction of a selected row, and the rows' disjointness. -/
theorem decoderAgreesWithTheOpcodeTable : Obligations.DecoderAgreesWithTheOpcodeTable := by
  refine ⟨rfl, fun b0 b1 => ⟨fun i h => ?_, fun r hr hsel => ?_⟩⟩
  · obtain ⟨hwf, hword⟩ := encodeWord_of_dispatch (decode_eq_ok.1 h)
    obtain ⟨r, hr, hmnemonic, hsel⟩ := encodeWord_selects_row i hwf
    rw [hword] at hsel
    exact ⟨r, hr, hsel, hmnemonic, fun r' hr' hsel' => eq_of_selects hr hr' hsel hsel'⟩
  · simpa only [decode_eq_ok] using dispatch_of_selects hr hsel

end Sys2Proof
end

section
/-! The unknown instruction in the cycle (40_instruction_cycle.md R106): what the step answers on a word of no row. -/

namespace Sys2Proof.Machine

/-- The dispatch of a fetched word that matches no row, past the advance (R103, R104). -/
theorem step_of_decode_error {s : State} {r : Reject} (hf : s.fetchable) (hd : decode s.b0 s.b1 = .error r) :
    step s = execUnknown s.b0 s.b1 s.advance := by
  simp only [step, fetch_of_fetchable hf, hd]

/-- Settles O10: the step ends in the advanced state with the diagnostic appended, and neither operation writes another
field. -/
theorem unknownInstructionIsLoggedAndSkipped : Obligations.UnknownInstructionIsLoggedAndSkipped := by
  intro s r hf hd
  have hstep : step s = .next ((s.setPc (s.pc + 2)).emit (.unknownInstruction s.b0 s.b1)) :=
    step_of_decode_error hf hd
  exact ⟨_, hstep, by simp [onlyControl, sameRegs, sameMem]⟩

end Sys2Proof.Machine
end

section
/-! Control flow (41_control_flow.md): RET and JP, and the four skips, which are one operation, `State.skipIf`, under
four conditions; then a skip in its whole step. -/

namespace Sys2Proof.Machine

/-- The dispatch of a fetched word that decodes, past the advance (40_instruction_cycle.md R103, R104). -/
theorem step_of_decode_ok {s : State} {i : Instr} (hf : s.fetchable) (hd : decode s.b0 s.b1 = .ok i) :
    step s = exec i s.advance := by
  simp only [step, fetch_of_fetchable hf, hd]

/-! ### Return and jump -/

/-- Settles O19: the two cases of RET, each with the frame of the operations it is made of. -/
theorem returnPopsOrWarns : Obligations.ReturnPopsOrWarns := by
  refine ⟨fun s rest w hs => ?_, fun s hs => ?_, rfl⟩
  · have hexec : exec .ret s = .next (s.dropTop.setPc w) := (exec_ret_next ..).2 (.inr ⟨w, by simp [hs], rfl⟩)
    exact ⟨_, hexec, by simp [hs, onlyControl, sameRegs, sameMem]⟩
  · have hexec : exec .ret s = .next (s.emit .emptyReturn) := (exec_ret_next ..).2 (.inl ⟨hs, rfl⟩)
    exact ⟨_, hexec, by simp [hs, onlyControl, sameRegs, sameMem]⟩

/-- The idle idiom: the jump puts back the pc that the advance has moved, and neither writes another field. -/
theorem step_of_idle {s : State} (h : s.idle) : step s = .next s := by
  obtain ⟨hf, nnn, hd, hnnn⟩ := h
  have hpc : zext16 nnn = s.pc := BitVec.eq_of_toNat_eq ((toNat_zext16 nnn).trans hnnn)
  calc step s = exec (.jp nnn) s.advance := step_of_decode_ok hf hd
    _ = .next (s.advance.setPc (zext16 nnn)) := (exec_jp_next ..).2 rfl
    _ = .next (s.advance.setPc s.pc) := by rw [hpc]
    _ = .next s := rfl

/-- Settles O20: the jump's one write, and the idle step. -/
theorem jumpSetsPc : Obligations.JumpSetsPc :=
  ⟨fun nnn s => ⟨_, (exec_jp_next ..).2 rfl, by simp [onlyControl, sameRegs, sameMem]⟩, fun _ => step_of_idle⟩

/-! ### Skips -/

/-- What an instruction does whose whole effect is a skip on a test `c` of the condition `p`. -/
theorem exec_skip {i : Instr} {s : State} {c : Bool} {p : Prop} [Decidable p]
    (hexec : exec i s = .next (s.skipIf c)) (hc : c = true ↔ p) :
    ∃ t, exec i s = .next t ∧ t.pc = (if p then s.pc + 2 else s.pc) ∧ t.stack = s.stack ∧ t.log = s.log ∧
      onlyControl s t :=
  ⟨_, hexec, by simp [hc, onlyControl, sameRegs, sameMem]⟩

/-- Settles O23: each skip is `State.skipIf` on a test of its own condition. -/
theorem skipsAddTwoOnTheirCondition : Obligations.SkipsAddTwoOnTheirCondition :=
  fun _ _ _ _ =>
    ⟨exec_skip ((exec_seImm_next ..).2 rfl) beq_iff_eq, exec_skip ((exec_sneImm_next ..).2 rfl) bne_iff_ne,
      exec_skip ((exec_seReg_next ..).2 rfl) beq_iff_eq, exec_skip ((exec_sneReg_next ..).2 rfl) bne_iff_ne⟩

/-- A skip's whole step: the 2 of a taken skip comes on top of the advance's 2 (R127). -/
theorem step_skip {i : Instr} {s : State} {c : Bool} {p : Prop} [Decidable p] (hf : s.fetchable)
    (hd : decode s.b0 s.b1 = .ok i) (hexec : exec i s.advance = .next (s.advance.skipIf c)) (hc : c = true ↔ p) :
    ∃ t, step s = .next t ∧ t.pc = if p then s.pc + 4 else s.pc + 2 :=
  ⟨_, (step_of_decode_ok hf hd).trans hexec, by simp [hc, BitVec.add_assoc]⟩

/-- Settles O24: each skip on the advanced state, whose registers are those of the state before. -/
theorem skipStepsGoByFourOrTwo : Obligations.SkipStepsGoByFourOrTwo :=
  fun _ hf _ _ _ =>
    ⟨fun hd => step_skip hf hd ((exec_seImm_next ..).2 rfl) beq_iff_eq,
      fun hd => step_skip hf hd ((exec_sneImm_next ..).2 rfl) bne_iff_ne,
      fun hd => step_skip hf hd ((exec_seReg_next ..).2 rfl) beq_iff_eq,
      fun hd => step_skip hf hd ((exec_sneReg_next ..).2 rfl) bne_iff_ne⟩

end Sys2Proof.Machine
end

section
/-! Load, add immediate and copy (42_register_alu.md R140, R141, R142): three instructions whose whole effect is one
register write, `State.setV`. -/

namespace Sys2Proof.Machine

/-- The frame of a register write: only the register written can differ. -/
theorem onlyRegs_setV (s : State) (x : Reg) (b : Byte) : onlyRegs (· == x) s (s.setV x b) := by
  have hregs : sameRegsBut (· == x) s (s.setV x b) := fun j hj => by
    have hne : j ≠ x := ne_of_beq_false hj
    simp [hne]
  exact ⟨hregs, by simp [sameMem]⟩

/-- What an instruction does whose whole effect is the write of `b` to `x`, with what a condition `P` says of `b`. -/
theorem exec_setV {i : Instr} {s : State} {x : Reg} {b : Byte} {P : Byte → Prop}
    (hexec : exec i s = .next (s.setV x b)) (hb : P b) :
    ∃ t, exec i s = .next t ∧ P (t.getV x) ∧ onlyRegs (· == x) s t :=
  ⟨_, hexec, by simpa using hb, onlyRegs_setV s x b⟩

/-- Settles O27: each instruction writes one register; the byte sum of ADD_IMM is the sum modulo 256. -/
theorem loadAddImmediateAndCopy : Obligations.LoadAddImmediateAndCopy :=
  fun x y nn s =>
    ⟨exec_setV (P := (· = nn)) ((exec_ldImm_next ..).2 rfl) rfl,
      exec_setV (P := fun b => b.toNat = ((s.getV x).toNat + nn.toNat) % 256) ((exec_addImm_next ..).2 rfl)
        (BitVec.toNat_add ..),
      exec_setV (P := (· = s.getV y)) ((exec_ldReg_next ..).2 rfl) rfl⟩

end Sys2Proof.Machine
end

section
/-! Display (44_display.md): the screen clear, whose whole effect is one framebuffer write, and the bits of the row
mask. -/

namespace Sys2Proof.Machine

/-- Settles O43: the one write of CLS is the cleared framebuffer. -/
theorem clearZeroesEveryRow : Obligations.ClearZeroesEveryRow :=
  fun s =>
    ⟨_, (exec_cls_next s _).2 rfl, fun r => Vector.get_replicate 32 0 r, by simp [sameRegs, sameMem]⟩

/-- A bit of the row mask: the left shift puts the sprite byte in the top eight bits of the row, the right shift moves
it down by the start column, and what goes below bit 0 is lost (R193). -/
theorem getLsbD_rowMask (b : Byte) (cx k : Nat) :
    (rowMask b cx).getLsbD k = (decide (56 ≤ cx + k ∧ cx + k < 64) && b.getLsbD (cx + k - 56)) := by
  simp only [rowMask, BitVec.getLsbD_ushiftRight, BitVec.getLsbD_shiftLeft, BitVec.getLsbD_setWidth]
  by_cases h : 56 ≤ cx + k ∧ cx + k < 64
  · have hbyte : cx + k - 56 < 64 := by omega
    simp [h, hbyte]
  · have hout : ¬ cx + k < 64 ∨ cx + k < 56 := by omega
    rcases hout with hout | hout <;> simp [h, hout]

/-- Settles O44: bit 63 - c of the mask lies in the window of the sprite byte exactly when c is among the eight columns,
and there it is the byte's bit 7 - (c - cx). -/
theorem rowMaskPlacesAndClipsPixels : Obligations.RowMaskPlacesAndClipsPixels := by
  intro b cx c _
  have hwindow : (56 ≤ cx + (63 - c.val) ∧ cx + (63 - c.val) < 64) ↔ (cx ≤ c.val ∧ c.val < cx + 8) := by omega
  rw [getLsbD_rowMask, decide_eq_decide.2 hwindow]
  by_cases h : cx ≤ c.val ∧ c.val < cx + 8
  · have hbit : cx + (63 - c.val) - 56 = 7 - (c.val - cx) := by omega
    rw [hbit]
  · simp [h]

end Sys2Proof.Machine
end

section
/-! Load (70_reset_and_hazards.md R260 to R263): the two branches of `Block.load`, with the length bound as the number
3584 (4096 bytes of memory less the 512 below the program). -/

namespace Sys2Proof.Machine

/-- A rom too long for the program area is refused, and the block stays (R261). -/
theorem Block.load_of_oversized (b : Block) {rom : List Byte} (h : rom.length > 3584) :
    b.load rom = (b, .failed .sizeExceeded) := by
  have htoo : rom.length + progBase > memSize := by simp only [progBase, memSize]; omega
  exact if_pos htoo

/-- A rom that fits is loaded (R260); its length decides the advisory alone (R263). -/
theorem Block.load_of_fits (b : Block) {rom : List Byte} (h : rom.length ≤ 3584) :
    b.load rom = (.loaded (State.load b.cfg b.log rom),
      .loaded (if rom.length % 2 = 1 then some .oddLength else none)) := by
  have hfits : ¬ rom.length + progBase > memSize := by simp only [progBase, memSize]; omega
  exact if_neg hfits

/-- Settles O52: the two branches of the load, and the failure's text. -/
theorem oversizedRomLeavesTheBlockUntouched : Obligations.OversizedRomLeavesTheBlockUntouched :=
  fun b _ => ⟨b.load_of_oversized, fun h => ⟨_, b.load_of_fits h⟩, rfl⟩

/-- Settles O53: the state of a load that fits does not depend on the parity, the advisory is the parity's. -/
theorem oddRomIsAcceptedWithAnAdvisory : Obligations.OddRomIsAcceptedWithAnAdvisory := by
  intro b rom h
  rw [b.load_of_fits h]
  constructor
  · intro hodd
    rw [if_pos hodd]
  · intro heven
    have hnotOdd : ¬ rom.length % 2 = 1 := by omega
    rw [if_neg hnotOdd]

end Sys2Proof.Machine
end

section
/-! Decoder and encoder (30_encoding.md R81 to R87): the two round trips, and the words that dispatch leaves without an
instruction. -/

namespace Sys2Proof

/-! ### The round trips -/

/-- Dispatch on the fields of an instruction's word: each format's fields are the operands it was put together from. -/
theorem dispatch_encodeWord {i : Instr} (h : i.wellFormed = true) :
    dispatch (fieldsOf (hiByte (encodeWord i)) (loByte (encodeWord i))) = some i := by
  cases i with
  | cls | ret => decide
  | jp | call | ldI => rw [encodeWord, fieldsOf_wordNNN]; rfl
  | seImm | sneImm | ldImm | addImm | bcd | stm | ldm => rw [encodeWord, fieldsOf_wordXNN]; rfl
  | seReg | sneReg | ldReg | orReg | andReg | xorReg | addReg | sub | shr | subn | shl =>
    rw [encodeWord, fieldsOf_wordXYN]; rfl
  | drw x y n =>
    have hn : (BitVec.ofNat 4 n).toNat = n := Nat.mod_eq_of_lt (of_decide_eq_true h)
    rw [encodeWord, fieldsOf_wordXYN]
    simp [dispatch, hn]

/-- Settles O3: the two bytes of the encoding are decoded, the rest is left. -/
theorem decodeOfEncodeIsTheInstruction : Obligations.DecodeOfEncodeIsTheInstruction := by
  intro i rest h
  have hd : decode (hiByte (encodeWord i)) (loByte (encodeWord i)) = .ok i := decode_eq_ok.2 (dispatch_encodeWord h)
  simp only [encode, List.cons_append, List.nil_append, decodeBytes, hd]

/-- Settles O4: the encoded word is the word the fields come from, and its two bytes are the word's. -/
theorem encodeOfDecodeIsTheWord : Obligations.EncodeOfDecodeIsTheWord := by
  intro b0 b1 i h
  obtain ⟨hwf, hword⟩ := encodeWord_of_dispatch (decode_eq_ok.1 h)
  exact ⟨hwf, by rw [encode, hword, hiByte_append, loByte_append]⟩

/-! ### The unknown words -/

/-- The last nibbles that are not family 8's own are R87's list. -/
theorem mem_unknown_of_family8 : ∀ n : BitVec 4, n ∈ [0x8#4, 0x9#4, 0xA#4, 0xB#4, 0xC#4, 0xD#4, 0xF#4] ↔
    n ≠ 0x0 ∧ n ≠ 0x1 ∧ n ≠ 0x2 ∧ n ≠ 0x3 ∧ n ≠ 0x4 ∧ n ≠ 0x5 ∧ n ≠ 0x6 ∧ n ≠ 0x7 ∧ n ≠ 0xE := by decide

/-- The families that have no row at all. -/
theorem family_without_row : ∀ op : BitVec 4, op = 0xB ∨ op = 0xC ∨ op = 0xE ↔
    op ≠ 0x0 ∧ op ≠ 0x1 ∧ op ≠ 0x2 ∧ op ≠ 0x3 ∧ op ≠ 0x4 ∧ op ≠ 0x5 ∧ op ≠ 0x6 ∧ op ≠ 0x7 ∧ op ≠ 0x8 ∧ op ≠ 0x9 ∧
      op ≠ 0xA ∧ op ≠ 0xD ∧ op ≠ 0xF := by decide

/-- Where dispatch gives no instruction, family by family. -/
theorem dispatch_eq_none (f : Fields) : dispatch f = none ↔
    (f.opcat = 0x0 ∧ f.nnn ≠ 0x0E0 ∧ f.nnn ≠ 0x0EE) ∨ (f.opcat = 0x5 ∧ f.n ≠ 0) ∨
    (f.opcat = 0x8 ∧ f.n ∈ [0x8#4, 0x9#4, 0xA#4, 0xB#4, 0xC#4, 0xD#4, 0xF#4]) ∨ (f.opcat = 0x9 ∧ f.n ≠ 0) ∨
    f.opcat = 0xB ∨ f.opcat = 0xC ∨ f.opcat = 0xE ∨ (f.opcat = 0xF ∧ f.nn ≠ 0x33 ∧ f.nn ≠ 0x55 ∧ f.nn ≠ 0x65) := by
  unfold dispatch
  split
  case h_1 hop | h_6 hop | h_10 hop | h_13 hop => split <;> simp_all
  case h_9 hop => rw [mem_unknown_of_family8]; split <;> simp_all
  case h_14 =>
    have hrow := family_without_row f.opcat
    simp_all
  all_goals next hop => simp [hop]

/-- Settles O6: what is rejected is what dispatch has no instruction for. -/
theorem unknownWordsAreThoseListed : Obligations.UnknownWordsAreThoseListed := by
  rintro b0 b1 f rfl
  simpa only [decode_eq_error, and_true] using dispatch_eq_none (fieldsOf b0 b1)

/-- Settles O1, each word by running the decoder on it. -/
theorem specWordsDecodeAsWritten : Obligations.SpecWordsDecodeAsWritten := by
  unfold Obligations.SpecWordsDecodeAsWritten
  decide

end Sys2Proof
end

section
/-! What a completed instruction leaves alone, said once for all of them; where pc goes and what is logged. -/

namespace Sys2Proof.Machine

/-! ### The frame of a completed instruction -/

/-- The instructions that move pc themselves (41_control_flow.md). -/
def movesPc : Instr → Bool
  | .ret | .jp _ | .call _ | .seImm _ _ | .sneImm _ _ | .seReg _ _ | .sneReg _ _ => true
  | .cls | .ldImm _ _ | .addImm _ _ | .ldReg _ _ | .orReg _ _ | .andReg _ _ | .xorReg _ _ | .addReg _ _ | .sub _ _
  | .shr _ _ | .subn _ _ | .shl _ _ | .ldI _ | .drw _ _ _ | .bcd _ | .stm _ | .ldm _ => false

/-- The fields an instruction does not write: the parameters never; pc, I, memory and the log only as the table of each
says. The stack and the framebuffer are `exec_with_stack` and `exec_with_fb`. -/
structure ExecFrame (i : Instr) (s t : State) : Prop where
  cfg : t.cfg = s.cfg
  pc : movesPc i = false → t.pc = s.pc
  index : (∀ nnn, i ≠ .ldI nnn) → t.i = s.i
  mem : (∀ x, i ≠ .bcd x) → (∀ x, i ≠ .stm x) → t.mem = s.mem
  log : i ≠ .ret → t.log = s.log

theorem exec_frame {i : Instr} {s t : State} (h : exec i s = .next t) : ExecFrame i s t := by
  cases i with
  | ret =>
    obtain ⟨-, rfl⟩ | ⟨w, -, rfl⟩ := (exec_ret_next s t).1 h <;> constructor <;> simp [movesPc]
  | call nnn =>
    obtain ⟨-, rfl⟩ := (exec_call_next s t nnn).1 h
    constructor <;> simp [movesPc]
  | bcd | stm | ldm | drw =>
    simp only [exec_bcd_next, exec_stm_next, exec_ldm_next, exec_drw_next] at h
    obtain ⟨-, rfl⟩ := h
    constructor <;> simp
  | seImm | sneImm | seReg | sneReg =>
    simp only [exec_seImm_next, exec_sneImm_next, exec_seReg_next, exec_sneReg_next] at h
    subst h
    constructor <;> simp [movesPc]
  | cls | jp | ldI | ldImm | addImm | ldReg | orReg | andReg | xorReg | addReg | sub | subn | shr | shl =>
    simp only [exec_cls_next, exec_jp_next, exec_ldI_next, exec_ldImm_next, exec_addImm_next, exec_ldReg_next,
      exec_orReg_next, exec_andReg_next, exec_xorReg_next, exec_addReg_next, exec_sub_next, exec_subn_next,
      exec_shr_next, exec_shl_next] at h
    subst h
    constructor <;> simp [movesPc, State.resultThenFlag, State.copyFlagShift]

/-! ### Where pc goes, and what is logged -/

/-- A skip on the advanced state, seen from the state before: the two advances add up. -/
theorem pc_skipIf_advance (s : State) {c : Bool} {p : Prop} [Decidable p] (hc : c = true ↔ p) :
    (s.advance.skipIf c).pc = if p then s.pc + 4 else s.pc + 2 := by
  simp [hc, BitVec.add_assoc]

/-- RET goes to the top of the stack, or on when there is none. -/
theorem exec_ret_pc {s t : State} (h : exec .ret s = .next t) : t.pc = s.stack.getLast?.getD s.pc := by
  obtain ⟨hs, rfl⟩ | ⟨w, hw, rfl⟩ := (exec_ret_next s t).1 h
  · simp [hs]
  · simp [hw]

/-- Settles O12: the instructions that move pc one by one, and the frame of every other. -/
theorem pcMovesAsTabled : Obligations.PcMovesAsTabled := by
  intro s t h
  obtain ⟨-, ⟨i, hd, h⟩ | ⟨r, hd, rfl⟩⟩ := step_eq_next h <;> rw [hd]
  · cases i with
    | ret => exact exec_ret_pc h
    | jp nnn => obtain rfl := (exec_jp_next ..).1 h; exact toNat_zext16 nnn
    | call nnn => obtain ⟨-, rfl⟩ := (exec_call_next ..).1 h; exact toNat_zext16 nnn
    | seImm => obtain rfl := (exec_seImm_next ..).1 h; exact pc_skipIf_advance s beq_iff_eq
    | seReg => obtain rfl := (exec_seReg_next ..).1 h; exact pc_skipIf_advance s beq_iff_eq
    | sneImm =>
      obtain rfl := (exec_sneImm_next ..).1 h; exact (pc_skipIf_advance s bne_iff_ne).trans (ite_not ..)
    | sneReg =>
      obtain rfl := (exec_sneReg_next ..).1 h; exact (pc_skipIf_advance s bne_iff_ne).trans (ite_not ..)
    | _ => exact (exec_frame h).pc rfl
  · rfl

/-- RET logs the warning on an empty stack, and nothing on another. -/
theorem exec_ret_log {s t : State} (h : exec .ret s = .next t) :
    t.log = s.log ++ if s.stack = [] then [.emptyReturn] else [] := by
  obtain ⟨hs, rfl⟩ | ⟨w, hw, rfl⟩ := (exec_ret_next s t).1 h
  · simp [hs]
  · have hs : s.stack ≠ [] := fun hs => by simp [hs] at hw
    simp [hs]

/-- Settles O13: RET and the unknown instruction log, and the frame of every other instruction keeps the log. -/
theorem stepEmitsAtMostOneDiagnostic : Obligations.StepEmitsAtMostOneDiagnostic := by
  intro s t h
  obtain ⟨-, ⟨i, hd, h⟩ | ⟨r, hd, rfl⟩⟩ := step_eq_next h <;> rw [hd]
  · refine ⟨(exec_frame h).cfg, ?_⟩
    cases i with
    | ret => exact exec_ret_log (s := s.advance) h
    | _ => exact ((exec_frame h).log (by simp)).trans (List.append_nil _).symm
  · exact ⟨rfl, rfl⟩

/-! ### Who writes I, memory and the framebuffer -/

/-- Settles O34: LD_I's one write, and the frame of every other instruction. -/
theorem loadIndexIsTheOnlyWriterOfI : Obligations.LoadIndexIsTheOnlyWriterOfI := by
  refine ⟨fun nnn s => ⟨_, (exec_ldI_next ..).2 rfl, by simp [sameRegs, sameMem]⟩,
    fun i s t hi h => (exec_frame h).index hi, fun b0 b1 s t h => ?_⟩
  obtain rfl := Host.Outcome.next.inj h
  rfl

/-- A byte read depends on memory and FONT alone. -/
theorem State.memByte_congr {s t : State} (hm : t.mem = s.mem) (hc : t.cfg = s.cfg) (a : Nat) :
    t.memByte a = s.memByte a := by
  simp only [State.memByte, hm, hc]

/-- Settles O39: an instruction other than BCD and STM keeps memory and FONT, and so what is read. -/
theorem onlyBcdAndStmWriteMemory : Obligations.OnlyBcdAndStmWriteMemory := by
  intro s t h hbcd hstm a
  obtain ⟨-, ⟨i, hd, h⟩ | ⟨r, -, rfl⟩⟩ := step_eq_next h
  · rw [hd] at hbcd hstm
    have hmem : t.mem = s.mem := (exec_frame h).mem (fun x hi => hbcd x (hi ▸ rfl)) (fun x hi => hstm x (hi ▸ rfl))
    exact State.memByte_congr hmem (exec_frame h).cfg a
  · rfl

/-- The output is true when a completed step executed CLS or DRW. -/
theorem framebufferTouched_of_draws {s t : State} {i : Instr} (h : step s = .next t) (hf : s.fetchable)
    (hd : decode s.b0 s.b1 = .ok i) (hi : i = .cls ∨ ∃ x y n, i = .drw x y n) : framebufferTouched s = true := by
  obtain rfl | ⟨x, y, n, rfl⟩ := hi <;> simp [framebufferTouched, fetch_of_fetchable hf, hd, h]

/-- Settles O49: with the output false the step executed neither CLS nor DRW, and no other instruction writes the
framebuffer. -/
theorem untouchedFramebufferIsUnchanged : Obligations.UntouchedFramebufferIsUnchanged := by
  intro s t h hfalse
  obtain ⟨hf, ⟨i, hd, hexec⟩ | ⟨r, -, rfl⟩⟩ := step_eq_next h
  · have hi : ¬(i = .cls ∨ ∃ x y n, i = .drw x y n) := fun hi =>
      Bool.false_ne_true (hfalse.symm.trans (framebufferTouched_of_draws h hf hd hi))
    obtain ⟨hcls, hdrw⟩ := not_or.1 hi
    exact (exec_with_fb hcls (fun x y n hi => hdrw ⟨x, y, n, hi⟩) hexec).1
  · rfl

end Sys2Proof.Machine
end

section
/-! The outcomes of an instruction and of a step (60_exceptions.md): when it completes, when it faults and with what,
and that it is never refused. -/

namespace Sys2Proof.Machine

/-! ### Instructions -/

/-- Settles O16: the four instructions with a data range check it first; the others transfer nothing. -/
theorem outOfRangeTransferFaults : Obligations.OutOfRangeTransferFaults := by
  intro i s h
  cases i with
  | drw | bcd | stm | ldm => exact withRange_of_not_inBounds h _
  | _ => exact absurd (.inl rfl) h

/-- RET always completes. -/
theorem exec_ret_completes (s : State) : ∃ t, exec .ret s = .next t := by
  cases hs : s.stack.getLast? with
  | none => exact ⟨_, (exec_ret_next s _).2 (.inl ⟨List.getLast?_eq_none_iff.1 hs, rfl⟩)⟩
  | some w => exact ⟨_, (exec_ret_next s _).2 (.inr ⟨w, hs, rfl⟩)⟩

/-- Settles O17: the range check passes, CALL is not at the cap, and the others have nothing to fail on. -/
theorem instructionsInBoundsComplete : Obligations.InstructionsInBoundsComplete := by
  intro i s hb hcall
  cases i with
  | drw | bcd | stm | ldm => exact ⟨_, withRange_of_inBounds hb _⟩
  | call nnn => exact ⟨_, (exec_call_next s _ nnn).2 ⟨hcall ⟨nnn, rfl⟩, rfl⟩⟩
  | ret => exact exec_ret_completes s
  | _ => exact ⟨_, rfl⟩

/-- Settles O21: off the cap the push and the jump, at the cap the fault. -/
theorem callPushesAndJumps : Obligations.CallPushesAndJumps := by
  intro nnn s
  refine ⟨fun hcap => ⟨_, (exec_call_next ..).2 ⟨hcap, rfl⟩, ?_⟩, fun hcap => ?_⟩
  · simp [onlyControl, sameRegs, sameMem]
  · simp [exec, execCall, State.stackFull, hcap, raise]

/-- The faults of an instruction: its data range, or the cap for CALL. -/
theorem exec_fault_iff {i : Instr} {s : State} {f : Fault} : exec i s = .fault f ↔
    (¬inBounds s.i.toNat (dataLen i) ∧ f = .boundsViolation .data (max s.i.toNat 4096)) ∨
    ((∃ nnn, i = .call nnn) ∧ s.cfg.stackCap = some s.stack.length ∧ f = .stackOverflow) := by
  by_cases hb : inBounds s.i.toNat (dataLen i)
  · by_cases hcap : (∃ nnn, i = .call nnn) ∧ s.cfg.stackCap = some s.stack.length
    · obtain ⟨⟨nnn, rfl⟩, hfull⟩ := hcap
      rw [(callPushesAndJumps nnn s).2 hfull]
      simp [hb, hfull, eq_comm]
    · obtain ⟨t, ht⟩ := instructionsInBoundsComplete i s hb (fun hcall hfull => hcap ⟨hcall, hfull⟩)
      rw [ht]
      simpa [hb] using fun nnn hi hfull => absurd ⟨⟨nnn, hi⟩, hfull⟩ hcap
  · rw [outOfRangeTransferFaults i s hb]
    have hdata : ¬∃ nnn, i = .call nnn := by
      rintro ⟨nnn, rfl⟩
      exact hb (.inl rfl)
    simp [hb, hdata, eq_comm]

/-! ### Steps -/

theorem step_of_not_fetchable {s : State} (h : ¬s.fetchable) :
    step s = .fault (.boundsViolation .fetch (max s.pc.toNat 4096)) := by
  simp only [step, fetch_of_not_fetchable h, raise]

/-- Settles O9: a pc from 0xFFF on has no two-byte window. -/
theorem fetchPastTheTopFaults : Obligations.FetchPastTheTopFaults :=
  fun s h => step_of_not_fetchable (by simp only [State.fetchable]; omega)

/-- Settles O11: a step is a fetch fault, an instruction, or the unknown instruction, and none refuses. -/
theorem stepNeverRefuses : Obligations.StepNeverRefuses := by
  intro s r
  by_cases hf : s.fetchable
  · cases hd : decode s.b0 s.b1 with
    | ok i => rw [step_of_decode_ok hf hd]; exact exec_ne_refused _ i r
    | error e => rw [step_of_decode_error hf hd]; exact nofun
  · rw [step_of_not_fetchable hf]; exact nofun

/-- Settles O14: the fetch fault, or a fault of the decoded instruction; the unknown instruction has none. -/
theorem faultsHaveExactlyTheListedCauses : Obligations.FaultsHaveExactlyTheListedCauses := by
  intro s f
  by_cases hf : s.fetchable
  · cases hd : decode s.b0 s.b1 with
    | ok i => rw [step_of_decode_ok hf hd, exec_fault_iff]; simp [hf]
    | error e => rw [step_of_decode_error hf hd]; simp [hf, execUnknown]
  · rw [step_of_not_fetchable hf]; simp [hf, eq_comm]

/-- A faulting step leaves the block as it was (D2). -/
theorem afterStep_of_fault {s : State} {f : Fault} (h : step s = .fault f) :
    (Block.loaded s).afterStep = .loaded s := by
  simp only [Block.afterStep, Block.step, h]

/-- Settles O15: the block is as it was, so its step is the same step. -/
theorem faultedStepChangesNothingAndRepeats : Obligations.FaultedStepChangesNothingAndRepeats := by
  intro s f h
  rw [afterStep_of_fault h]
  exact ⟨rfl, h⟩

/-- Settles O7: the two dispatches past the advance, and the block after a fault. -/
theorem stepAdvancesThenRunsTheDecodedInstruction : Obligations.StepAdvancesThenRunsTheDecodedInstruction :=
  fun _ hf => ⟨fun _ => step_of_decode_ok hf, fun _ => step_of_decode_error hf, fun _ => afterStep_of_fault⟩

end Sys2Proof.Machine
end

section
/-! The invariant of runs: every load meets it and every completed step keeps it. Each clause is a lemma about the
instructions, at a state whose pc is past the advance; the frames leave few instructions to look at. -/

namespace Sys2Proof.Machine

variable {i : Instr} {s t : State}

theorem toNat_zext16_lt (nnn : Addr) : (zext16 nnn).toNat < 4096 := by
  rw [toNat_zext16]
  exact nnn.isLt

/-- Two past a pc of a run: no wrap (D11). -/
theorem toNat_add_two {w : Word} (h : w.toNat ≤ 0x1000) : (w + 2).toNat = w.toNat + 2 := by bv_omega

/-! ### Each clause, instruction by instruction -/

/-- LD_I loads twelve bits, and no other instruction writes I. -/
theorem exec_keeps_index (hs : s.i.toNat ≤ 0x0FFF) (h : exec i s = .next t) : t.i.toNat ≤ 0x0FFF := by
  by_cases hi : ∃ nnn, i = .ldI nnn
  · obtain ⟨nnn, rfl⟩ := hi
    obtain rfl := (exec_ldI_next ..).1 h
    exact Nat.le_of_lt_succ (toNat_zext16_lt nnn)
  · rwa [(exec_frame h).index (not_exists.1 hi)]

/-- A taken skip goes at most 2 on. -/
theorem pc_skipIf_le (hpc : s.pc.toNat ≤ 0x1000) (c : Bool) : (s.skipIf c).pc.toNat ≤ 0x1002 := by
  cases c
  · exact hpc.trans (by decide)
  · exact (toNat_add_two hpc).trans_le (by omega)

/-- pc comes from a twelve-bit target, from the stack, from a skip, or from the advance. -/
theorem exec_keeps_pc (hpc : s.pc.toNat ≤ 0x1000) (hs : ∀ e ∈ s.stack, 2 ≤ e.toNat ∧ e.toNat ≤ 0x1000)
    (h : exec i s = .next t) : t.pc.toNat ≤ 0x1002 := by
  have hstay : s.pc.toNat ≤ 0x1002 := hpc.trans (by decide)
  cases i with
  | ret =>
    obtain ⟨-, rfl⟩ | ⟨w, hw, rfl⟩ := (exec_ret_next s t).1 h
    · exact hstay
    · exact (hs w (List.mem_of_getLast? hw)).2.trans (by decide)
  | jp nnn =>
    obtain rfl := (exec_jp_next ..).1 h
    exact (toNat_zext16_lt nnn).le.trans (by decide)
  | call nnn =>
    obtain ⟨-, rfl⟩ := (exec_call_next ..).1 h
    exact (toNat_zext16_lt nnn).le.trans (by decide)
  | seImm | sneImm | seReg | sneReg =>
    simp only [exec_seImm_next, exec_sneImm_next, exec_seReg_next, exec_sneReg_next] at h
    subst h
    exact pc_skipIf_le hpc _
  | _ => rwa [(exec_frame h).pc rfl]

/-- The stack's entries after an instruction are old ones and, after CALL, the pc past the advance. -/
theorem exec_keeps_returns (hpc : 2 ≤ s.pc.toNat ∧ s.pc.toNat ≤ 0x1000)
    (hs : ∀ e ∈ s.stack, 2 ≤ e.toNat ∧ e.toNat ≤ 0x1000) (h : exec i s = .next t) :
    ∀ e ∈ t.stack, 2 ≤ e.toNat ∧ e.toNat ≤ 0x1000 := by
  cases i with
  | ret =>
    rw [(exec_ret_stack h).1]
    exact fun e he => hs e (List.mem_of_mem_dropLast he)
  | call nnn =>
    obtain ⟨-, rfl⟩ := (exec_call_next ..).1 h
    intro e he
    obtain he | he := List.mem_append.1 he
    · exact hs e he
    · exact List.mem_singleton.1 he ▸ hpc
  | _ => rwa [(exec_with_stack (by simp) (by simp) h).1]

/-- Only CALL makes the stack longer, and not at the cap. -/
theorem exec_keeps_cap (hs : ∀ c, s.cfg.stackCap = some c → s.stack.length ≤ c) (h : exec i s = .next t) :
    ∀ c, t.cfg.stackCap = some c → t.stack.length ≤ c := by
  rw [(exec_frame h).cfg]
  intro c hc
  cases i with
  | ret =>
    rw [(exec_ret_stack h).1, List.length_dropLast]
    exact (Nat.sub_le _ _).trans (hs c hc)
  | call nnn =>
    obtain ⟨hcap, rfl⟩ := (exec_call_next ..).1 h
    have hne : s.stack.length ≠ c := fun hlen => hcap (hlen ▸ hc)
    have hle := hs c hc
    simp only [State.setPc_stack, State.push_stack, List.length_append, List.length_singleton]
    omega
  | _ =>
    rw [(exec_with_stack (by simp) (by simp) h).1]
    exact hs c hc

theorem length_digits (b : Byte) : (digits b).length = 3 := rfl

/-- A store checks its whole range, so that every byte it writes is inside the address space. -/
theorem exec_keeps_memory (hs : Memory.wf s.cfg s.mem) (h : exec i s = .next t) : Memory.wf t.cfg t.mem := by
  rw [(exec_frame h).cfg]
  cases i with
  | bcd x =>
    obtain ⟨hb, rfl⟩ := (exec_bcd_next ..).1 h
    exact State.writeBytes_wf hs (hb.resolve_left (by decide))
  | stm x =>
    obtain ⟨hb, rfl⟩ := (exec_stm_next ..).1 h
    exact State.writeBytes_wf hs (by rw [State.length_regsUpTo]; exact hb.resolve_left (by simp))
  | _ => rwa [(exec_frame h).mem (by simp) (by simp)]

/-! ### Steps and runs -/

/-- The clauses together, at a pc past the advance. -/
theorem exec_keeps_inv (hs : s.Inv) (hpc : 2 ≤ s.pc.toNat ∧ s.pc.toNat ≤ 0x1000) (h : exec i s = .next t) : t.Inv where
  index := exec_keeps_index hs.index h
  pc := exec_keeps_pc hpc.2 hs.returns h
  returns := exec_keeps_returns hpc hs.returns h
  cap := exec_keeps_cap hs.cap h
  memory := exec_keeps_memory hs.memory h

/-- Before a fetch pc is at most 0xFFE, and so the advance does not wrap. -/
theorem advance_pc_bounds (hf : s.fetchable) : 2 ≤ s.advance.pc.toNat ∧ s.advance.pc.toNat ≤ 0x1000 := by
  simp only [State.fetchable] at hf
  rw [State.advance_pc, toNat_add_two (by omega)]
  omega

/-- The advance of a fetchable state keeps the invariant. -/
theorem advance_inv (hs : s.Inv) (hf : s.fetchable) : s.advance.Inv where
  index := hs.index
  pc := (advance_pc_bounds hf).2.trans (by decide)
  returns := hs.returns
  cap := hs.cap
  memory := hs.memory

/-- Settles O58: the advance keeps the invariant, then the instruction does; the unknown one only logs. -/
theorem stepKeepsTheInvariant : Obligations.StepKeepsTheInvariant := by
  intro s t hs h
  obtain ⟨hf, ⟨i, -, h⟩ | ⟨r, -, rfl⟩⟩ := step_eq_next h
  · exact exec_keeps_inv (advance_inv hs hf) (advance_pc_bounds hf) h
  · obtain ⟨hindex, hpc, hreturns, hcap, hmemory⟩ := advance_inv hs hf
    exact ⟨hindex, hpc, hreturns, hcap, hmemory⟩

/-- Settles O56: the fields of a load are fixed but for memory, whose bytes are written inside the address space. -/
theorem loadMeetsTheInvariant : Obligations.LoadMeetsTheInvariant := by
  intro c log rom hrom
  have hfits : progBase + rom.length ≤ memSize := by simp only [progBase, memSize]; omega
  constructor
  case memory =>
    rw [State.load, State.writeBytes_cfg]
    exact State.writeBytes_wf (Memory.wf_nil c) hfits
  all_goals simp [State.load, State.reset]

/-- Settles O51: a load of no bytes writes nothing. -/
theorem resetIsALoadOfTheEmptyRom : Obligations.ResetIsALoadOfTheEmptyRom :=
  ⟨rfl, .load Config.default [] [] (Nat.zero_le _)⟩

/-- Settles O57: the reset state is a load's. -/
theorem resetMeetsTheInvariant : Obligations.ResetMeetsTheInvariant :=
  loadMeetsTheInvariant Config.default [] [] (Nat.zero_le _)

/-- The invariant of runs, by induction on the run. -/
theorem Reachable.inv (h : Reachable s) : s.Inv := by
  induction h with
  | load c log rom h => exact loadMeetsTheInvariant c log rom h
  | step _ hs ih => exact stepKeepsTheInvariant _ _ ih hs

/-- Settles O59: the invariant of runs, and the window a completed step has fetched from. -/
theorem reachableStatesMeetTheInvariant : Obligations.ReachableStatesMeetTheInvariant := by
  refine fun s h => ⟨h.inv, fun t hs => ?_⟩
  obtain ⟨hf, -⟩ := step_eq_next hs
  simp only [State.fetchable] at hf
  omega

/-! ### Data faults in a run -/

/-- A well-formed instruction transfers at most sixteen bytes. -/
theorem dataLen_le (h : i.wellFormed = true) : dataLen i ≤ 16 := by
  cases i with
  | drw x y n => exact (of_decide_eq_true h).le
  | stm x | ldm x => exact x.isLt
  | bcd => exact show 3 ≤ 16 by decide
  | _ => exact Nat.zero_le _

/-- Settles O18: I is below 4096, so the lowest address out of range is 4096, and at most sixteen bytes on. -/
theorem reachableDataFaultsReport4096 : Obligations.ReachableDataFaultsReport4096 := by
  intro s a hr h
  have hindex := hr.inv.index
  obtain ⟨-, hf⟩ | ⟨-, i, hd, hb, hf⟩ | ⟨-, nnn, -, -, hf⟩ := (faultsHaveExactlyTheListedCauses s _).1 h
  · cases hf
  · obtain rfl : a = max s.i.toNat 4096 := by simpa using hf
    have hlen := dataLen_le (encodeOfDecodeIsTheWord _ _ i hd).1
    simp only [inBounds] at hb
    omega
  · cases hf

end Sys2Proof.Machine
end

section
/-! Logic, arithmetic and shifts (42_register_alu.md): one register write, a result then its flag, or the three writes
of a shift, each with its frame; then the values. -/

namespace Sys2Proof.Machine

/-! ### Logic -/

/-- Settles O28: one register write, whose bits are those of the two operands. -/
theorem logicIsBitwiseAndLeavesTheFlag : Obligations.LogicIsBitwiseAndLeavesTheFlag := by
  intro x y s
  refine ⟨⟨_, (exec_orReg_next ..).2 rfl, onlyRegs_setV .., fun k => ?_⟩,
    ⟨_, (exec_andReg_next ..).2 rfl, onlyRegs_setV .., fun k => ?_⟩,
    ⟨_, (exec_xorReg_next ..).2 rfl, onlyRegs_setV .., fun k => ?_⟩⟩ <;> simp

/-! ### A result, then its flag -/

theorem toNat_carryFlag (a b : Byte) : (carryFlag a b).toNat = if a.toNat + b.toNat > 255 then 1 else 0 :=
  apply_ite BitVec.toNat ..

theorem toNat_noBorrowFlag (a b : Byte) : (noBorrowFlag a b).toNat = if a.toNat ≥ b.toNat then 1 else 0 :=
  apply_ite BitVec.toNat ..

theorem toNat_byte_sub (a b : Byte) : (a - b).toNat = (a.toNat + 256 - b.toNat) % 256 := by bv_omega

theorem onlyRegs_resultThenFlag (s : State) (x : Reg) (result flag : Byte) :
    onlyRegs (fun j => j == x || j == vf) s (s.resultThenFlag x result flag) := by
  refine ⟨fun j hj => ?_, fun _ => rfl, rfl, rfl, rfl, rfl, rfl, rfl⟩
  have hne : j ≠ x ∧ j ≠ vf := by simpa using hj
  simp [hne]

/-- What an instruction does that writes a result and then its flag: with x = F the flag is what remains. -/
theorem exec_resultThenFlag {i : Instr} {s : State} {x : Reg} {result flag : Byte} {r f : Nat}
    (hexec : exec i s = .next (s.resultThenFlag x result flag)) (hflag : flag.toNat = f) (hresult : result.toNat = r) :
    ∃ t, exec i s = .next t ∧ (t.getV vf).toNat = f ∧ (x ≠ vf → (t.getV x).toNat = r) ∧
      onlyRegs (fun j => j == x || j == vf) s t := by
  refine ⟨_, hexec, by simp [hflag], fun hx => ?_, onlyRegs_resultThenFlag ..⟩
  simp [hx, hresult]

/-- Settles O29: the byte sum and its carry. -/
theorem addRegisterWithCarry : Obligations.AddRegisterWithCarry :=
  fun _ _ _ => exec_resultThenFlag ((exec_addReg_next ..).2 rfl) (toNat_carryFlag ..) (BitVec.toNat_add ..)

/-- Settles O30: the byte difference and its no-borrow, for either order of the operands. -/
theorem subtractWithNoBorrow : Obligations.SubtractWithNoBorrow :=
  fun _ _ _ =>
    ⟨exec_resultThenFlag ((exec_sub_next ..).2 rfl) (toNat_noBorrowFlag ..) (toNat_byte_sub ..),
      exec_resultThenFlag ((exec_subn_next ..).2 rfl) (toNat_noBorrowFlag ..) (toNat_byte_sub ..)⟩

/-! ### The shifts -/

theorem onlyRegs_copyFlagShift (s : State) (x y : Reg) (flag shift : Byte → Byte) :
    onlyRegs (fun j => j == x || j == vf) s (s.copyFlagShift x y flag shift) := by
  refine ⟨fun j hj => ?_, fun _ => rfl, rfl, rfl, rfl, rfl, rfl, rfl⟩
  have hne : j ≠ x ∧ j ≠ vf := by simpa using hj
  simp [State.getV_copyFlagShift, hne]

/-- With x not F, V[x] is the shifted copy and VF its flag. -/
theorem getV_copyFlagShift_of_ne (s : State) {x : Reg} (y : Reg) (flag shift : Byte → Byte) (hx : x ≠ vf) :
    (s.copyFlagShift x y flag shift).getV x = shift (s.getV y) ∧
      (s.copyFlagShift x y flag shift).getV vf = flag (s.getV y) := by
  simp [State.getV_copyFlagShift, hx, hx.symm]

/-- With x = F, the flag is shifted. -/
theorem getV_copyFlagShift_vf (s : State) (y : Reg) (flag shift : Byte → Byte) :
    (s.copyFlagShift vf y flag shift).getV vf = shift (flag (s.getV y)) := by
  simp [State.getV_copyFlagShift]

theorem toNat_shrFlag (b : Byte) : (shrFlag b).toNat = b.toNat % 2 := by
  simp [shrFlag, Nat.and_one_is_mod]

/-- The low bit shifted right is gone. -/
theorem shrFlag_shift (b : Byte) : shrFlag b >>> 1 = 0 := by
  refine BitVec.eq_of_toNat_eq ?_
  rw [BitVec.toNat_ushiftRight, toNat_shrFlag, Nat.shiftRight_eq_div_pow]
  exact Nat.div_eq_of_lt (Nat.mod_lt _ (by decide))

/-- Settles O31: the copy is halved, its low bit is the flag; with x = F that bit is shifted out. -/
theorem shiftRightOfTheCopy : Obligations.ShiftRightOfTheCopy := by
  intro x y s
  refine ⟨_, (exec_shr_next ..).2 rfl, fun hx => ?_, ?_, onlyRegs_copyFlagShift ..⟩
  · obtain ⟨hresult, hflag⟩ := getV_copyFlagShift_of_ne s y shrFlag (· >>> 1) hx
    rw [hresult, hflag]
    exact ⟨BitVec.toNat_ushiftRight .., toNat_shrFlag _⟩
  · rintro rfl
    exact (getV_copyFlagShift_vf ..).trans (shrFlag_shift _)

theorem toNat_shlFlag (gt : Bool) (b : Byte) :
    (shlFlag gt b).toNat = if (if gt then b.toNat > 0x80 else b.toNat ≥ 0x80) then 1 else 0 := by
  cases gt <;> exact apply_ite BitVec.toNat ..

theorem toNat_byte_shl (b : Byte) : (b <<< 1).toNat = b.toNat * 2 % 256 := by
  rw [BitVec.toNat_shiftLeft, Nat.shiftLeft_eq]

/-- Twice a flag fits a byte. -/
theorem toNat_shlFlag_shift (gt : Bool) (b : Byte) : (shlFlag gt b <<< 1).toNat = 2 * (shlFlag gt b).toNat := by
  have hflag : (shlFlag gt b).toNat ≤ 1 := by rw [toNat_shlFlag gt b]; split_ifs <;> decide
  rw [toNat_byte_shl]
  omega

/-- Settles O32: the copy is doubled, the top-bit test is the flag; with x = F the flag is doubled. -/
theorem shiftLeftOfTheCopy : Obligations.ShiftLeftOfTheCopy := by
  intro x y s
  refine ⟨_, _, (exec_shl_next ..).2 rfl, toNat_shlFlag s.cfg.shlFlagGt (s.getV y), fun hx => ?_, ?_,
    onlyRegs_copyFlagShift ..⟩
  · obtain ⟨hresult, hflag⟩ := getV_copyFlagShift_of_ne s y (shlFlag s.cfg.shlFlagGt) (· <<< 1) hx
    rw [hresult, hflag]
    exact ⟨toNat_byte_shl _, rfl⟩
  · rintro rfl
    rw [getV_copyFlagShift_vf]
    exact toNat_shlFlag_shift ..

/-- Off 0x80 the two tests agree. -/
theorem shlFlag_eq_of_ne {b : Byte} (h : b ≠ 0x80) (gt gt' : Bool) : shlFlag gt b = shlFlag gt' b := by
  have hne : b.toNat ≠ 0x80 := fun hb => h (BitVec.eq_of_toNat_eq hb)
  have htests : b.toNat ≥ 0x80 ↔ b.toNat > 0x80 := by omega
  cases gt <;> cases gt' <;> simp [shlFlag, htests]

/-- The flag function is asked only about the copied value. -/
theorem copyFlagShift_congr (s : State) (x y : Reg) {flag flag' : Byte → Byte} (shift : Byte → Byte)
    (h : flag (s.getV y) = flag' (s.getV y)) : s.copyFlagShift x y flag shift = s.copyFlagShift x y flag' shift := by
  simp only [State.copyFlagShift, State.getV_setV, if_true, h]

/-- Settles O33: the parameter is the choice of the flag function, which agrees at the copied value. -/
theorem shlParameterMattersOnlyAt80 : Obligations.ShlParameterMattersOnlyAt80 := by
  intro x y s t g hy h
  obtain rfl := (exec_shl_next ..).1 h
  refine (exec_shl_next ..).2 ?_
  rw [copyFlagShift_congr s x y _ (shlFlag_eq_of_ne hy s.cfg.shlFlagGt g)]
  rfl

end Sys2Proof.Machine
end

section
/-! Stores and loads at I (43_index_memory.md), the stores seen by a fetch (20_memory.md R61, R64), and memory as what
it reads. -/

namespace Sys2Proof.Machine

/-! ### What a block store leaves -/

/-- A byte inside the stored block. -/
theorem memByte_writeBytes_of_lt (s : State) (base : Nat) {bs : List Byte} {k : Nat} (h : k < bs.length) :
    (s.writeBytes base bs).memByte (base + k) = bs[k] := by
  rw [State.memByte_writeBytes, dif_pos (by omega)]
  simp

/-- The frame of a block store: memory outside the block, and every other field. -/
theorem frame_writeBytes (s : State) (base : Nat) (bs : List Byte) {n : Nat} (hn : bs.length = n) :
    sameMemOutside base n s (s.writeBytes base bs) ∧ sameRegs s (s.writeBytes base bs) ∧
      (s.writeBytes base bs).i = s.i ∧ (s.writeBytes base bs).pc = s.pc ∧ (s.writeBytes base bs).stack = s.stack ∧
      (s.writeBytes base bs).fb = s.fb ∧ (s.writeBytes base bs).log = s.log ∧ (s.writeBytes base bs).cfg = s.cfg := by
  subst hn
  exact ⟨fun a ha => (s.memByte_writeBytes base bs a).trans (dif_neg ha), by simp [sameRegs]⟩

/-- STM's block: at offset j the register j (R172). -/
theorem memByte_writeBytes_regsUpTo (s : State) (x : Reg) (base : Nat) {j : Reg} (hj : j ≤ x) :
    (s.writeBytes base (s.regsUpTo x)).memByte (base + j.val) = s.getV j := by
  have hlen : j.val < (s.regsUpTo x).length := by
    rw [State.length_regsUpTo]
    exact Nat.lt_succ_of_le hj
  rw [memByte_writeBytes_of_lt s base hlen, State.getElem_regsUpTo]

/-! ### BCD, STM and LDM -/

/-- Settles O35: the block stored is the three digits, each of which fits its byte. -/
theorem bcdStoresThreeDigits : Obligations.BcdStoresThreeDigits := by
  intro x s h
  have hv : (s.getV x).toNat < 256 := (s.getV x).isLt
  have hdigit (k d : Nat) (hk : k < 3) (hd : (digits (s.getV x))[k] = BitVec.ofNat 8 d) (hlt : d < 256) :
      ((s.writeBytes s.i.toNat (digits (s.getV x))).memByte (s.i.toNat + k)).toNat = d := by
    rw [memByte_writeBytes_of_lt s _ hk, hd, BitVec.toNat_ofNat, Nat.mod_eq_of_lt hlt]
  exact ⟨_, (exec_bcd_next ..).2 ⟨.inr (by omega), rfl⟩, hdigit 0 _ (by decide) rfl (by omega),
    hdigit 1 _ (by decide) rfl (by omega), hdigit 2 _ (by decide) rfl (by omega),
    frame_writeBytes _ _ _ (length_digits _)⟩

/-- Settles O36: the block stored is V[0] to V[x]. -/
theorem storeRegistersAtIndex : Obligations.StoreRegistersAtIndex :=
  fun x s h => ⟨_, (exec_stm_next ..).2 ⟨.inr (by omega), rfl⟩, fun _ => memByte_writeBytes_regsUpTo s x _,
    frame_writeBytes _ _ _ (State.length_regsUpTo s x)⟩

/-- LDM's frame: the registers after x keep what they held. -/
theorem onlyRegs_loadRegs (s : State) (x : Reg) (base : Nat) :
    onlyRegs (fun j => decide (j ≤ x)) s (s.loadRegs x base) := by
  refine ⟨fun j hj => ?_, by simp [sameMem]⟩
  rw [State.getV_loadRegs, if_neg (of_decide_eq_false hj)]

/-- Settles O37: the registers up to x are loaded, and only they. -/
theorem loadRegistersFromIndex : Obligations.LoadRegistersFromIndex :=
  fun x s h => ⟨_, (exec_ldm_next ..).2 ⟨.inr (by omega), rfl⟩,
    fun j hj => (s.getV_loadRegs x _ j).trans (if_pos hj), onlyRegs_loadRegs ..⟩

/-- Settles O38: the loaded bytes are those the store has left at the same addresses. -/
theorem storeThenLoadRestoresRegisters : Obligations.StoreThenLoadRestoresRegisters := by
  intro x s t u h hmem hcfg hindex
  obtain ⟨hb, rfl⟩ := (exec_stm_next ..).1 h
  refine ⟨_, (exec_ldm_next ..).2 ⟨hindex ▸ hb, rfl⟩, fun j hj => ?_⟩
  calc (u.loadRegs x u.i.toNat).getV j = u.memByte (u.i.toNat + j.val) := (u.getV_loadRegs x _ j).trans (if_pos hj)
    _ = (s.writeBytes s.i.toNat (s.regsUpTo x)).memByte (s.i.toNat + j.val) := by
      rw [hindex, State.memByte_congr hmem hcfg]
    _ = s.getV j := memByte_writeBytes_regsUpTo s x _ hj

/-! ### A store and the next fetch -/

/-- A step that fetches two bytes just stored runs the instruction they decode to, at the advanced state. -/
theorem step_writeBytes {s : State} {base : Nat} {bs : List Byte} {b0 b1 : Byte} {i : Instr} (hf : s.fetchable)
    (h0 : (s.writeBytes base bs).memByte s.pc.toNat = b0)
    (h1 : (s.writeBytes base bs).memByte (s.pc.toNat + 1) = b1) (hd : decode b0 b1 = .ok i) :
    step (s.writeBytes base bs) = exec i ((s.writeBytes base bs).setPc (s.pc + 2)) := by
  subst h0 h1
  have hfetchable : (s.writeBytes base bs).fetchable := by rwa [State.fetchable, State.writeBytes_pc]
  have hdecode : decode (s.writeBytes base bs).b0 (s.writeBytes base bs).b1 = .ok i := by
    rwa [State.b0, State.b1, State.writeBytes_pc]
  rw [step_of_decode_ok hfetchable hdecode, State.advance, State.writeBytes_pc]

/-- Settles O41: the two bytes at pc are the two registers stored there. -/
theorem storedInstructionIsFetchedNext : Obligations.StoredInstructionIsFetchedNext := by
  intro x k s t hk i h hpc hd
  obtain ⟨hb, rfl⟩ := (exec_stm_next ..).1 h
  have hf : s.fetchable := by
    simp only [State.fetchable, inBounds] at hb ⊢
    omega
  refine step_writeBytes hf ?_ ?_ hd
  · rw [hpc]
    exact memByte_writeBytes_regsUpTo s x _ (j := ⟨k, by omega⟩) (Nat.le_of_succ_le hk)
  · rw [hpc, Nat.add_assoc]
    exact memByte_writeBytes_regsUpTo s x _ (j := ⟨k + 1, by omega⟩) hk

/-- A table word that stands for an instruction is decoded from its two bytes. -/
theorem decode_tableBytes {nbits w : Nat} {i : Instr} (h : decodeTableWord nbits w = some i) :
    decode (tableBytes nbits w).1 (tableBytes nbits w).2 = .ok i := by
  unfold decodeTableWord at h
  split at h
  · next hok => rw [hok, Option.some.inj h]
  · cases h

/-- Settles O8: the two bytes at pc are the word's. -/
theorem placedWordIsRunNext : Obligations.PlacedWordIsRunNext := by
  intro s w i hf hd
  have hplace : s.withFetchWord 16 w = s.writeBytes s.pc.toNat [(tableBytes 16 w).1, (tableBytes 16 w).2] := by
    rw [State.withFetchWord, if_pos hf]
  rw [hplace]
  exact step_writeBytes hf (memByte_writeBytes_of_lt s _ (k := 0) (by simp))
    (memByte_writeBytes_of_lt s _ (k := 1) (by simp)) (decode_tableBytes hd)

/-! ### Memory read as data -/

theorem State.writeBytes_with_mem (s : State) (m : Memory) (base : Nat) (bs : List Byte) :
    { State.writeBytes { s with mem := m } base bs with mem := (s.writeBytes base bs).mem } = s.writeBytes base bs := by
  rw [State.writeBytes_eq { s with mem := m }, s.writeBytes_eq]

theorem State.skipIf_with_mem (s : State) (m : Memory) (c : Bool) :
    { State.skipIf { s with mem := m } c with mem := (s.skipIf c).mem } = s.skipIf c := by
  cases c <;> rfl

/-- Settles O40: the operations of the other instructions take nothing from memory, and only a store puts something
there. -/
theorem onlyDrwAndLdmReadMemory : Obligations.OnlyDrwAndLdmReadMemory := by
  intro i s t m hdrw hldm h
  cases i with
  | drw x y n => exact absurd rfl (hdrw x y n)
  | ldm x => exact absurd rfl (hldm x)
  | ret =>
    obtain ⟨hs, rfl⟩ | ⟨w, hw, rfl⟩ := (exec_ret_next s t).1 h
    · exact ⟨_, (exec_ret_next ..).2 (.inl ⟨hs, rfl⟩), rfl⟩
    · exact ⟨_, (exec_ret_next ..).2 (.inr ⟨w, hw, rfl⟩), rfl⟩
  | call nnn =>
    obtain ⟨hcap, rfl⟩ := (exec_call_next ..).1 h
    exact ⟨_, (exec_call_next ..).2 ⟨hcap, rfl⟩, rfl⟩
  | bcd x =>
    obtain ⟨hb, rfl⟩ := (exec_bcd_next ..).1 h
    exact ⟨_, (exec_bcd_next ..).2 ⟨hb, rfl⟩, State.writeBytes_with_mem ..⟩
  | stm x =>
    obtain ⟨hb, rfl⟩ := (exec_stm_next ..).1 h
    exact ⟨_, (exec_stm_next ..).2 ⟨hb, rfl⟩, State.writeBytes_with_mem ..⟩
  | seImm | sneImm | seReg | sneReg =>
    simp only [exec_seImm_next, exec_sneImm_next, exec_seReg_next, exec_sneReg_next] at h
    subst h
    exact ⟨_, rfl, State.skipIf_with_mem ..⟩
  | cls | jp | ldI | ldImm | addImm | ldReg | orReg | andReg | xorReg | addReg | sub | subn | shr | shl =>
    simp only [exec_cls_next, exec_jp_next, exec_ldI_next, exec_ldImm_next, exec_addImm_next, exec_ldReg_next,
      exec_orReg_next, exec_andReg_next, exec_xorReg_next, exec_addReg_next, exec_sub_next, exec_subn_next,
      exec_shr_next, exec_shl_next] at h
    subst h
    exact ⟨_, rfl, rfl⟩

/-! ### Memory in its canonical form is what it reads -/

/-- The pair found for an address is in the list. -/
theorem Memory.mem_of_lookup {m : Memory} {a : Nat} {b : Byte} (h : Memory.lookup m a = some b) : (a, b) ∈ m := by
  induction m with
  | nil => cases h
  | cons e m ih =>
    obtain ⟨k, b'⟩ := e
    simp only [Memory.lookup] at h
    split at h
    · next hk => obtain rfl := Option.some.inj h; subst hk; exact List.mem_cons_self
    · exact List.mem_cons_of_mem _ (ih h)

/-- With rising addresses the first pair for an address is the only one. -/
theorem Memory.lookup_of_mem {m : Memory} {e : Host.Cell} (hm : m.Pairwise (fun e e' => e.1 < e'.1)) (he : e ∈ m) :
    Memory.lookup m e.1 = some e.2 := by
  induction m with
  | nil => cases he
  | cons x m ih =>
    obtain ⟨hx, hm⟩ := List.pairwise_cons.1 hm
    obtain rfl | he := List.mem_cons.1 he
    · exact if_pos rfl
    · exact (if_neg (hx e he).ne).trans (ih hm he)

/-- In the canonical form a pair is listed exactly when its address reads as its byte and not as unlisted. -/
theorem Memory.mem_iff_read {c : Config} {m : Memory} (h : Memory.wf c m) (e : Host.Cell) :
    e ∈ m ↔ Memory.read c m e.1 = e.2 ∧ e.2 ≠ unlisted c e.1 := by
  constructor
  · intro he
    exact ⟨by rw [Memory.read, Memory.lookup_of_mem h.1 he]; rfl, (h.2 e he).2⟩
  · rintro ⟨hread, hne⟩
    cases hlookup : Memory.lookup m e.1 with
    | none => exact absurd (by rw [← hread, Memory.read, hlookup]; rfl) hne
    | some b =>
      rw [Memory.read, hlookup] at hread
      exact Memory.mem_of_lookup (hlookup.trans (congrArg some hread))

/-- Settles O42: alike reads list the same pairs, and rising addresses fix their order. -/
theorem equalReadsAreEqualMemories : Obligations.EqualReadsAreEqualMemories := by
  intro c m m' h h' hread
  have hirrefl : Std.Irrefl (fun e e' : Host.Cell => e.1 < e'.1) := ⟨fun e => Nat.lt_irrefl e.1⟩
  have hasymm : Std.Asymm (fun e e' : Host.Cell => e.1 < e'.1) := ⟨fun e e' => Nat.lt_asymm⟩
  refine h.1.eq_of_mem_iff h'.1 fun e => ?_
  rw [Memory.mem_iff_read h, Memory.mem_iff_read h', hread]

end Sys2Proof.Machine
end

section
/-! Drawing (44_display.md R191 to R198). The sprite as one mask for each row of the screen makes the loop over its bytes
one exclusive OR per row, and the collision flag a question about the rows and the masks. -/

namespace Sys2Proof.Machine

/-! ### The sprite's masks -/

/-- The mask of a sprite, whose first byte is at row `r`, on row `k`: nothing on the rows it does not reach. -/
def spriteMask (cx r : Nat) : List Byte → Nat → Row
  | [], _ => 0
  | b :: bs, k => if k = r then rowMask b cx else spriteMask cx (r + 1) bs k

theorem spriteMask_eq (cx r : Nat) (bytes : List Byte) (k : Nat) : spriteMask cx r bytes k =
    if h : r ≤ k ∧ k - r < bytes.length then rowMask (bytes[k - r]'h.2) cx else 0 := by
  induction bytes generalizing r with
  | nil => simp [spriteMask]
  | cons b bs ih =>
    simp only [spriteMask, ih, List.length_cons]
    by_cases hk : k = r
    · subst hk; simp
    · by_cases h : r + 1 ≤ k ∧ k - (r + 1) < bs.length
      · obtain ⟨d, rfl⟩ : ∃ d, k = r + 1 + d := ⟨k - (r + 1), by omega⟩
        have hd : r + 1 + d - r = d + 1 := by omega
        rw [if_neg hk, dif_pos h, dif_pos (by omega)]
        simp [hd]
      · rw [if_neg hk, dif_neg h, dif_neg (by omega)]

/-- Above its first row a sprite has no mask. -/
theorem spriteMask_of_lt {cx r k : Nat} (bytes : List Byte) (h : k < r) : spriteMask cx r bytes k = 0 := by
  rw [spriteMask_eq, dif_neg (by omega)]

/-! ### The loop over the sprite bytes -/

/-- One sprite byte: its row is XORed with its mask, on the screen or below it, and no other row changes. -/
theorem rows_drawRow (d : DrawState) (cx r : Nat) (b : Byte) (k : Fin 32) :
    (d.drawRow cx r b).rows.get k = d.rows.get k ^^^ (if k.val = r then rowMask b cx else 0) := by
  by_cases hr : r < 32
  · rw [DrawState.drawRow_of_lt d cx b hr]
    by_cases hk : k.val = r
    · subst hk; simp [Vector.get_eq_getElem]
    · simp [Vector.get_eq_getElem, hk, Ne.symm hk]
  · have hk : k.val ≠ r := by omega
    simp [DrawState.drawRow_of_ge d cx b (Nat.le_of_not_lt hr), hk]

/-- The rows after the loop. -/
theorem rows_drawRows (d : DrawState) (cx r : Nat) (bytes : List Byte) (k : Fin 32) :
    (d.drawRows cx r bytes).rows.get k = d.rows.get k ^^^ spriteMask cx r bytes k := by
  induction bytes generalizing d r with
  | nil => simp [DrawState.drawRows, spriteMask]
  | cons b bs ih =>
    rw [DrawState.drawRows, ih, rows_drawRow, spriteMask]
    split
    · next hk => rw [spriteMask_of_lt bs (by omega)]; simp
    · simp

/-- One sprite byte: the flag, once true, stays true; it becomes true on a lit pixel under the mask. -/
theorem collision_drawRow (d : DrawState) (cx r : Nat) (b : Byte) : (d.drawRow cx r b).collision = true ↔
    d.collision = true ∨ ∃ k : Fin 32, k.val = r ∧ d.rows.get k &&& rowMask b cx ≠ 0 := by
  by_cases hr : r < 32
  · have hrow : (∃ k : Fin 32, k.val = r ∧ d.rows.get k &&& rowMask b cx ≠ 0) ↔ d.rows[r] &&& rowMask b cx ≠ 0 :=
      ⟨fun ⟨k, hk, hne⟩ => by subst hk; exact hne, fun hne => ⟨⟨r, hr⟩, rfl, hne⟩⟩
    rw [DrawState.drawRow_of_lt d cx b hr, hrow]
    simp [collides]
  · have hrow : ¬∃ k : Fin 32, k.val = r ∧ d.rows.get k &&& rowMask b cx ≠ 0 := fun ⟨k, hk, _⟩ => hr (hk ▸ k.isLt)
    rw [DrawState.drawRow_of_ge d cx b (Nat.le_of_not_lt hr), or_iff_left hrow]

/-- The flag after the loop: rows drawn earlier are not drawn again, so each is met as it was at the start. -/
theorem collision_drawRows (d : DrawState) (cx r : Nat) (bytes : List Byte) :
    (d.drawRows cx r bytes).collision = true ↔
      d.collision = true ∨ ∃ k : Fin 32, d.rows.get k &&& spriteMask cx r bytes k ≠ 0 := by
  induction bytes generalizing d r with
  | nil => simp [DrawState.drawRows, spriteMask]
  | cons b bs ih =>
    rw [DrawState.drawRows, ih, collision_drawRow, or_assoc, ← exists_or]
    refine or_congr Iff.rfl (exists_congr fun k => ?_)
    rw [rows_drawRow, spriteMask]
    split
    · next hk => subst hk; simp [spriteMask_of_lt bs (Nat.lt_succ_self _)]
    · next hk => simp [hk]

/-! ### The drawn sprite -/

section

variable (rows : Vector Row 32) (cx cy : Nat) (bytes : List Byte)

theorem rows_drawSprite (r : Fin 32) :
    (drawSprite rows cx cy bytes).rows.get r = rows.get r ^^^ spriteMask cx cy bytes r :=
  rows_drawRows ..

theorem collision_drawSprite : (drawSprite rows cx cy bytes).collision = true ↔
    ∃ r : Fin 32, rows.get r &&& spriteMask cx cy bytes r ≠ 0 :=
  (collision_drawRows ..).trans (or_iff_right Bool.false_ne_true)

theorem pixel_drawSprite (r : Fin 32) (c : Fin 64) : pixel (drawSprite rows cx cy bytes).rows r c =
    (pixel rows r c != (spriteMask cx cy bytes r).getLsbD (63 - c.val)) := by
  rw [pixel, rows_drawSprite, BitVec.getLsbD_xor]
  rfl

/-- A row and a mask overlap when they have a column in common. -/
theorem and_ne_zero_iff_column (a b : Row) :
    a &&& b ≠ 0 ↔ ∃ c : Fin 64, a.getLsbD (63 - c.val) = true ∧ b.getLsbD (63 - c.val) = true := by
  constructor
  · intro hne
    by_contra hnone
    refine hne (BitVec.eq_of_getLsbD_eq fun k hk => ?_)
    have hcol : 63 - (63 - k) = k := by omega
    have hbits := not_exists.1 hnone ⟨63 - k, by omega⟩
    simp only [hcol] at hbits
    simpa using hbits
  · rintro ⟨c, ha, hb⟩ hzero
    have hbit := congrArg (·.getLsbD (63 - c.val)) hzero
    simp [ha, hb] at hbit

/-- A collision is a lit pixel turned off (R197). -/
theorem collision_iff_pixel_off : (drawSprite rows cx cy bytes).collision = true ↔
    ∃ r c, pixel rows r c = true ∧ pixel (drawSprite rows cx cy bytes).rows r c = false := by
  rw [collision_drawSprite]
  refine exists_congr fun r => (and_ne_zero_iff_column ..).trans (exists_congr fun c => and_congr_right fun hlit => ?_)
  have hpixel : pixel rows r c = true := hlit
  rw [pixel_drawSprite, hpixel]
  simp

/-- Drawing the same sprite again takes the masks off again (R198). -/
theorem rows_drawSprite_drawSprite : (drawSprite (drawSprite rows cx cy bytes).rows cx cy bytes).rows = rows := by
  refine Vector.ext fun k hk => ?_
  have hrow : (drawSprite (drawSprite rows cx cy bytes).rows cx cy bytes).rows.get ⟨k, hk⟩ = rows.get ⟨k, hk⟩ := by
    rw [rows_drawSprite, rows_drawSprite, BitVec.xor_assoc, BitVec.xor_self, BitVec.xor_zero]
  exact hrow

end

/-! ### DRW -/

/-- VF after DRW is the collision flag as a byte. -/
theorem getV_vf_drawn (s : State) (x y : Reg) (n : Nat) : (s.drawn x y n).getV vf =
    flagOf (drawSprite s.fb (s.spriteCol x) (s.spriteRow y) (s.readBytes s.i.toNat n)).collision := by
  simp [State.drawn]

theorem toNat_flagOf (p : Bool) : (flagOf p).toNat = if p then 1 else 0 := by cases p <;> rfl

/-- VF is 1 after DRW exactly when a lit pixel was turned off. -/
theorem getV_vf_drawn_eq_one (s : State) (x y : Reg) (n : Nat) : (s.drawn x y n).getV vf = 1 ↔
    ∃ r c, pixel s.fb r c = true ∧ pixel (s.drawn x y n).fb r c = false := by
  have hflag (p : Bool) : flagOf p = 1 ↔ p = true := by cases p <;> decide
  rw [getV_vf_drawn, hflag]
  exact collision_iff_pixel_off ..

/-- Settles O45: each row from its mask, the flag from the overlaps, and DRW as this drawing. -/
theorem spriteRowsAreXoredAndCollisionIsSticky : Obligations.SpriteRowsAreXoredAndCollisionIsSticky := by
  refine ⟨fun rows cx cy bytes => ⟨fun r => ?_, ?_, collision_iff_pixel_off .., rows_drawSprite_drawSprite ..⟩,
    fun x y n s hb => ⟨_, _, (exec_drw_next ..).2 ⟨hb, rfl⟩, rfl, rfl, ?_⟩⟩
  · rw [rows_drawSprite, spriteMask_eq]
    split <;> simp
  · rw [collision_drawSprite]
    refine exists_congr fun r => ?_
    rw [spriteMask_eq]
    split <;> simp_all
  · rw [getV_vf_drawn]
    exact toNat_flagOf _

/-- The lit pixels by the operand forms that DRW uses. -/
theorem spritePixel_eq (s : State) (x y : Reg) (n : Nat) (r : Fin 32) (c : Fin 64) : spritePixel s x y n r c =
    (decide (s.spriteRow y ≤ r.val ∧ r.val < s.spriteRow y + n ∧ s.spriteCol x ≤ c.val ∧ c.val < s.spriteCol x + 8) &&
      (s.memByte (s.i.toNat + (r.val - s.spriteRow y))).getLsbD (7 - (c.val - s.spriteCol x))) := rfl

/-- The masks of the sprite that DRW reads are its lit pixels (R191 to R194). -/
theorem getLsbD_spriteMask (s : State) (x y : Reg) (n : Nat) (r : Fin 32) (c : Fin 64) :
    (spriteMask (s.spriteCol x) (s.spriteRow y) (s.readBytes s.i.toNat n) r).getLsbD (63 - c.val) =
      spritePixel s x y n r c := by
  have hcol : s.spriteCol x < 64 := Nat.mod_lt _ (by decide)
  rw [spriteMask_eq, spritePixel_eq]
  by_cases hr : s.spriteRow y ≤ r.val ∧ r.val - s.spriteRow y < (s.readBytes s.i.toNat n).length
  · rw [dif_pos hr, rowMaskPlacesAndClipsPixels _ _ c hcol, State.getElem_readBytes]
    rw [State.length_readBytes] at hr
    congr 1
    exact decide_eq_decide.2 (by omega)
  · rw [dif_neg hr]
    rw [State.length_readBytes] at hr
    have hout : ¬(s.spriteRow y ≤ r.val ∧ r.val < s.spriteRow y + n ∧ s.spriteCol x ≤ c.val ∧
        c.val < s.spriteCol x + 8) := by omega
    rw [decide_eq_false hout]
    exact BitVec.getLsbD_zero

/-- Settles O46: a pixel changes by its bit of the mask, and VF and the framebuffer are all that DRW writes. -/
theorem drawTogglesTheSpritePixels : Obligations.DrawTogglesTheSpritePixels := by
  intro x y n s hb
  refine ⟨_, (exec_drw_next ..).2 ⟨hb, rfl⟩, fun r c => ?_, ?_, getV_vf_drawn_eq_one .., fun j hj => ?_,
    by simp [sameMem]⟩
  · rw [← getLsbD_spriteMask]
    exact pixel_drawSprite ..
  · rw [getV_vf_drawn, toNat_flagOf]
    split <;> simp
  · exact State.drawn_getV_of_ne s x y n (ne_of_beq_false hj)

/-- Settles O47: the second draw starts from the first one's picture, with the same sprite at the same place. -/
theorem drawingTwiceRestoresTheFramebuffer : Obligations.DrawingTwiceRestoresTheFramebuffer := by
  intro x y n s t h
  obtain ⟨hb, rfl⟩ := (exec_drw_next ..).1 h
  have hbytes : State.readBytes { s with fb := (s.drawn x y n).fb } s.i.toNat n = s.readBytes s.i.toNat n :=
    State.readBytes_congr (s := s) (t := { s with fb := (s.drawn x y n).fb }) rfl rfl _ _
  have hrestored : (State.drawn { s with fb := (s.drawn x y n).fb } x y n).fb = s.fb := by
    simp only [State.drawn, hbytes]
    exact rows_drawSprite_drawSprite ..
  refine ⟨_, (exec_drw_next ..).2 ⟨hb, rfl⟩, hrestored, ?_⟩
  rw [getV_vf_drawn_eq_one, hrestored]
  simp only [and_comm]

end Sys2Proof.Machine
end

section
/-! A call and its return, over two whole steps (41_control_flow.md R122). -/

namespace Sys2Proof.Machine

/-- The state a whole CALL step leaves. -/
theorem step_call {s : State} {nnn : Addr} (hf : s.fetchable) (hd : decode s.b0 s.b1 = .ok (.call nnn))
    (hcap : s.cfg.stackCap ≠ some s.stack.length) :
    step s = .next ((s.push (s.pc + 2)).setPc (zext16 nnn)) :=
  (step_of_decode_ok hf hd).trans ((exec_call_next ..).2 ⟨hcap, rfl⟩)

/-- The state a whole RET step leaves, with `w` on top of the stack. -/
theorem step_ret {s : State} {w : Word} (hf : s.fetchable) (hd : decode s.b0 s.b1 = .ok .ret)
    (hw : s.stack.getLast? = some w) : step s = .next (s.dropTop.setPc w) :=
  (step_of_decode_ok hf hd).trans ((exec_ret_next ..).2 (.inr ⟨w, hw, rfl⟩))

/-- Settles O22: RET takes off what CALL has put on, and neither writes memory. -/
theorem callThenReturnComesBack : Obligations.CallThenReturnComesBack := by
  intro s nnn hf hd hcap hnnn hret
  have hpc : ((s.push (s.pc + 2)).setPc (zext16 nnn)).pc.toNat = nnn.toNat := toNat_zext16 nnn
  refine ⟨_, _, step_call hf hd hcap, step_ret (w := s.pc + 2) ?_ ?_ (by simp), ?_⟩
  · rwa [State.fetchable, hpc]
  · rwa [State.b0, State.b1, hpc]
  · simp [onlyControl, sameRegs, sameMem]

end Sys2Proof.Machine
end

section
/-! What a load leaves (70_reset_and_hazards.md R260, R261). -/

namespace Sys2Proof.Machine

/-- Settles O54: the state of a load is made of the rom, the parameters and the host's log. -/
theorem loadReplacesEverything : Obligations.LoadReplacesEverything := by
  intro b b' rom hcfg hlog hrom
  rw [b.load_of_fits hrom, b'.load_of_fits hrom, hcfg, hlog]

/-- Settles O55: the empty block refuses, and a load that fails leaves it empty. -/
theorem stepBeforeLoadIsRefused : Obligations.StepBeforeLoadIsRefused := by
  refine fun c rom => ⟨rfl, fun hrom => ?_⟩
  rw [Block.load_of_oversized _ hrom]
  rfl

/-- What is at an address after a load: the rom from 0x200 on, elsewhere what an unlisted address reads as (R260). -/
theorem memByte_load (c : Config) (log : List Diagnostic) (rom : List Byte) (a : Nat) :
    (State.load c log rom).memByte a =
      if h : 512 ≤ a ∧ a < 512 + rom.length then rom[a - 512]'(by omega) else unlisted c a :=
  State.memByte_writeBytes ..

/-- FONT at its addresses. -/
theorem unlisted_font (c : Config) {k : Nat} (h : k < 80) : unlisted c (0x50 + k) = c.font[k] := by
  rw [unlisted, dif_pos (by simp only [fontBase, fontLen]; omega)]
  simp

/-- Zero everywhere else. -/
theorem unlisted_eq_zero (c : Config) {a : Nat} (h : ¬(0x50 ≤ a ∧ a < 0xA0)) : unlisted c a = 0 := dif_neg h

/-- Settles O50: the fields of reset, and the memory by its three kinds of address. -/
theorem loadMakesTheTabledState : Obligations.LoadMakesTheTabledState := by
  rintro c log rom _ - rfl
  refine ⟨fun j => ?_, ?_, ?_, ?_, fun r => ?_, fun k hk => ?_, fun k hk => ?_, fun a _ hfont hrom => ?_⟩
  · simp [State.load, State.reset, State.getV, Vector.get_eq_getElem]
  · simp [State.load, State.reset]
  · simp [State.load, State.reset]
  · simp [State.load, State.reset]
  · simp [State.load, State.reset, Vector.get_eq_getElem]
  · rw [memByte_load, dif_neg (by omega), unlisted_font c hk]
  · rw [memByte_load, dif_pos (by omega)]
    simp
  · rw [memByte_load, dif_neg hrom, unlisted_eq_zero c hfont]

end Sys2Proof.Machine
end

section
/-! The table of 10_state.md R21: an instruction changes no register outside its `writes` column, and takes nothing from
a register outside its `reads` column. The second is said of a state and the same state with another register file. -/

namespace Sys2Proof.Machine

/-! ### The writes column -/

/-- Each writer by the frame of its operation; the other instructions keep the whole register file. -/
theorem exec_sameRegsBut {i : Instr} {s t : State} (h : exec i s = .next t) : sameRegsBut (regsWritten i) s t := by
  cases i with
  | ret => obtain ⟨-, rfl⟩ | ⟨w, -, rfl⟩ := (exec_ret_next s t).1 h <;> exact fun _ _ => rfl
  | call nnn => obtain ⟨-, rfl⟩ := (exec_call_next ..).1 h; exact fun _ _ => rfl
  | bcd | stm =>
    simp only [exec_bcd_next, exec_stm_next] at h
    obtain ⟨-, rfl⟩ := h
    exact fun _ _ => State.writeBytes_getV ..
  | ldm x => obtain ⟨-, rfl⟩ := (exec_ldm_next ..).1 h; exact (onlyRegs_loadRegs ..).1
  | drw x y n =>
    obtain ⟨-, rfl⟩ := (exec_drw_next ..).1 h
    exact fun j hj => State.drawn_getV_of_ne s x y n (ne_of_beq_false hj)
  | seImm | sneImm | seReg | sneReg =>
    simp only [exec_seImm_next, exec_sneImm_next, exec_seReg_next, exec_sneReg_next] at h
    subst h
    exact fun _ _ => State.skipIf_getV ..
  | cls | jp | ldI =>
    simp only [exec_cls_next, exec_jp_next, exec_ldI_next] at h
    subst h
    exact fun _ _ => rfl
  | ldImm | addImm | ldReg | orReg | andReg | xorReg =>
    simp only [exec_ldImm_next, exec_addImm_next, exec_ldReg_next, exec_orReg_next, exec_andReg_next,
      exec_xorReg_next] at h
    subst h
    exact (onlyRegs_setV ..).1
  | addReg | sub | subn =>
    simp only [exec_addReg_next, exec_sub_next, exec_subn_next] at h
    subst h
    exact (onlyRegs_resultThenFlag ..).1
  | shr | shl =>
    simp only [exec_shr_next, exec_shl_next] at h
    subst h
    exact (onlyRegs_copyFlagShift ..).1

/-! ### The operations under another register file -/

/-- Two outcomes that agree on the registers `writes` and on every other field. -/
def agreeOn (writes : Reg → Bool) (t t' : State) : Prop :=
  (∀ j, writes j = true → t'.getV j = t.getV j) ∧ { t' with v := t.v } = t

variable (s : State) (w : Vector Byte 16)

/-- What is done without the registers is done alike, and no written register remains to compare. -/
theorem agreeOn_with_v (t : State) : agreeOn (fun _ => false) t { t with v := w } := ⟨by simp, rfl⟩

theorem State.skipIf_with_v (c : Bool) : State.skipIf { s with v := w } c = { s.skipIf c with v := w } := by
  cases c <;> rfl

theorem State.writeBytes_with_v (base : Nat) (bs : List Byte) :
    State.writeBytes { s with v := w } base bs = { s.writeBytes base bs with v := w } := by
  rw [State.writeBytes_congr (s := s) (t := { s with v := w }) rfl rfl]
  simp

theorem agreeOn_setV (x : Reg) (b : Byte) :
    agreeOn (· == x) (s.setV x b) (State.setV { s with v := w } x b) := ⟨by simp, rfl⟩

theorem agreeOn_resultThenFlag (x : Reg) (r f : Byte) : agreeOn (fun j => j == x || j == vf)
    (s.resultThenFlag x r f) (State.resultThenFlag { s with v := w } x r f) := by
  refine ⟨fun j hj => ?_, rfl⟩
  obtain rfl | rfl : j = x ∨ j = vf := by simpa using hj
  all_goals simp

/-- The shifts read V[y] alone. -/
theorem agreeOn_copyFlagShift {y : Reg} (hy : State.getV { s with v := w } y = s.getV y) (x : Reg)
    (flag shift : Byte → Byte) : agreeOn (fun j => j == x || j == vf)
    (s.copyFlagShift x y flag shift) (State.copyFlagShift { s with v := w } x y flag shift) := by
  refine ⟨fun j hj => ?_, rfl⟩
  obtain rfl | rfl : j = x ∨ j = vf := by simpa using hj
  all_goals simp [State.getV_copyFlagShift, hy]

theorem agreeOn_loadRegs (x : Reg) (a : Nat) : agreeOn (fun j => decide (j ≤ x))
    (s.loadRegs x a) (State.loadRegs { s with v := w } x a) := by
  refine ⟨fun j hj => ?_, rfl⟩
  have hle : j ≤ x := of_decide_eq_true hj
  rw [State.getV_loadRegs, State.getV_loadRegs, if_pos hle, if_pos hle]
  rfl

/-- The block STM stores is made of V[0] to V[x]. -/
theorem regsUpTo_with_v {x : Reg} (hw : ∀ j ≤ x, State.getV { s with v := w } j = s.getV j) :
    State.regsUpTo { s with v := w } x = s.regsUpTo x := by
  refine List.ext_getElem (by rw [State.length_regsUpTo, State.length_regsUpTo]) fun k hk _ => ?_
  rw [State.getElem_regsUpTo, State.getElem_regsUpTo]
  rw [State.length_regsUpTo] at hk
  exact hw _ (Nat.le_of_lt_succ hk)

/-- The place DRW draws at is V[x], V[y]. -/
theorem agreeOn_drawn {x y : Reg} (hx : State.getV { s with v := w } x = s.getV x)
    (hy : State.getV { s with v := w } y = s.getV y) (n : Nat) :
    agreeOn (· == vf) (s.drawn x y n) (State.drawn { s with v := w } x y n) := by
  have hbytes : State.readBytes { s with v := w } s.i.toNat n = s.readBytes s.i.toNat n :=
    State.readBytes_congr (s := s) (t := { s with v := w }) rfl rfl _ _
  simp only [State.drawn, State.spriteCol, State.spriteRow, hx, hy, hbytes]
  exact agreeOn_setV (s.setFb _) w vf _

/-! ### The reads column -/

variable {s w} {i : Instr} {t : State}

/-- Under a register file that agrees on the registers read, a completed instruction completes alike: the operands are
the same, and so is what is done with them. -/
theorem exec_under_regs (hw : ∀ j, regsRead i j = true → State.getV { s with v := w } j = s.getV j)
    (h : exec i s = .next t) : ∃ t', exec i { s with v := w } = .next t' ∧ agreeOn (regsWritten i) t t' := by
  cases i with
  | ret =>
    obtain ⟨hs, rfl⟩ | ⟨e, he, rfl⟩ := (exec_ret_next s t).1 h
    · exact ⟨_, (exec_ret_next ..).2 (.inl ⟨hs, rfl⟩), agreeOn_with_v w _⟩
    · exact ⟨_, (exec_ret_next ..).2 (.inr ⟨e, he, rfl⟩), agreeOn_with_v w _⟩
  | call nnn =>
    obtain ⟨hcap, rfl⟩ := (exec_call_next ..).1 h
    exact ⟨_, (exec_call_next ..).2 ⟨hcap, rfl⟩, agreeOn_with_v w _⟩
  | cls | jp | ldI =>
    simp only [exec_cls_next, exec_jp_next, exec_ldI_next] at h
    subst h
    exact ⟨_, rfl, agreeOn_with_v w _⟩
  | seImm x nn | sneImm x nn =>
    have hx := hw x (by simp [regsRead])
    simp only [exec_seImm_next, exec_sneImm_next] at h
    subst h
    simp only [exec_seImm_next, exec_sneImm_next, hx, State.skipIf_with_v]
    exact ⟨_, rfl, agreeOn_with_v w _⟩
  | seReg x y | sneReg x y =>
    have hx := hw x (by simp [regsRead])
    have hy := hw y (by simp [regsRead])
    simp only [exec_seReg_next, exec_sneReg_next] at h
    subst h
    simp only [exec_seReg_next, exec_sneReg_next, hx, hy, State.skipIf_with_v]
    exact ⟨_, rfl, agreeOn_with_v w _⟩
  | bcd x =>
    have hx := hw x (by simp [regsRead])
    obtain ⟨hb, rfl⟩ := (exec_bcd_next ..).1 h
    refine ⟨_, (exec_bcd_next ..).2 ⟨hb, rfl⟩, ?_⟩
    rw [hx, State.writeBytes_with_v s w]
    exact agreeOn_with_v w _
  | stm x =>
    have hblock := regsUpTo_with_v s w fun j hj => hw j (decide_eq_true hj)
    obtain ⟨hb, rfl⟩ := (exec_stm_next ..).1 h
    refine ⟨_, (exec_stm_next ..).2 ⟨hb, rfl⟩, ?_⟩
    rw [hblock, State.writeBytes_with_v s w]
    exact agreeOn_with_v w _
  | ldm x =>
    obtain ⟨hb, rfl⟩ := (exec_ldm_next ..).1 h
    exact ⟨_, (exec_ldm_next ..).2 ⟨hb, rfl⟩, agreeOn_loadRegs ..⟩
  | drw x y n =>
    obtain ⟨hb, rfl⟩ := (exec_drw_next ..).1 h
    exact ⟨_, (exec_drw_next ..).2 ⟨hb, rfl⟩,
      agreeOn_drawn s w (hw x (by simp [regsRead])) (hw y (by simp [regsRead])) n⟩
  | ldImm x nn =>
    obtain rfl := (exec_ldImm_next ..).1 h
    exact ⟨_, rfl, agreeOn_setV ..⟩
  | addImm x nn =>
    have hx := hw x (by simp [regsRead])
    obtain rfl := (exec_addImm_next ..).1 h
    simp only [exec_addImm_next, hx]
    exact ⟨_, rfl, agreeOn_setV ..⟩
  | ldReg x y =>
    have hy := hw y (by simp [regsRead])
    obtain rfl := (exec_ldReg_next ..).1 h
    simp only [exec_ldReg_next, hy]
    exact ⟨_, rfl, agreeOn_setV ..⟩
  | orReg x y | andReg x y | xorReg x y =>
    have hx := hw x (by simp [regsRead])
    have hy := hw y (by simp [regsRead])
    simp only [exec_orReg_next, exec_andReg_next, exec_xorReg_next] at h
    subst h
    simp only [exec_orReg_next, exec_andReg_next, exec_xorReg_next, hx, hy]
    exact ⟨_, rfl, agreeOn_setV ..⟩
  | addReg x y | sub x y | subn x y =>
    have hx := hw x (by simp [regsRead])
    have hy := hw y (by simp [regsRead])
    simp only [exec_addReg_next, exec_sub_next, exec_subn_next] at h
    subst h
    simp only [exec_addReg_next, exec_sub_next, exec_subn_next, hx, hy]
    exact ⟨_, rfl, agreeOn_resultThenFlag ..⟩
  | shr x y | shl x y =>
    have hy := hw y (by simp [regsRead])
    simp only [exec_shr_next, exec_shl_next] at h
    subst h
    simp only [exec_shr_next, exec_shl_next]
    exact ⟨_, rfl, agreeOn_copyFlagShift s w hy ..⟩

/-- Settles O26: no cause of a fault is in a register, and completed instructions keep to both columns. -/
theorem registersAreReadAndWrittenAsTabled : Obligations.RegistersAreReadAndWrittenAsTabled := by
  refine ⟨fun i s w hw => ⟨fun f h => exec_fault_iff.2 ((exec_fault_iff (s := s)).1 h),
    fun t h => ⟨exec_sameRegsBut h, exec_under_regs hw h⟩⟩, fun b0 b1 s t w h => ?_⟩
  obtain rfl := Host.Outcome.next.inj h
  exact ⟨rfl, rfl⟩

end Sys2Proof.Machine
end
